-- ==== Sys2Proof/Word.lean ====
section
/-! DEFINITION. The word types of the block (spec 00_scope R6, R8). -/

namespace Sys2Proof

/-- A byte, 0 to 255, bit 7 the most significant (R8). -/
abbrev Byte := BitVec 8

/-- A 16-bit checksum field: LengthCheck, PayloadCheck (R6). -/
abbrev Check := BitVec 16

/-- A 32-bit field: Length, `maxBufferSize`, `pendingLength`, the length operands (R6). -/
abbrev Word := BitVec 32

end Sys2Proof
end

