-- ==== Sys2Proof/Machine/Operands.lean ====
section
/-! DEFINITION. Operand forms: byte-sequence slices and big-endian fields (spec 00_scope R9, R10; 20_memory R43 to R45). -/

namespace Sys2Proof.Machine

/-- `s[i..i+n)`, the n bytes from index i (R9). -/
def slice (s : List Byte) (i n : Nat) : List Byte := (s.drop i).take n

/-- The number a byte sequence stands for, its first byte the most significant (R10). -/
def beNat (s : List Byte) : Nat := s.foldl (fun acc b => acc * 256 + b.toNat) 0

/-- `BE16` of a two-byte sequence, as the 16-bit field it is (R10). -/
def be16 (s : List Byte) : Check := BitVec.ofNat 16 (beNat s)

/-- `bytesBE32`: the four bytes of v, most significant first (R10). -/
def bytesBE32 (v : Word) : List Byte :=
  [v.extractLsb' 24 8, v.extractLsb' 16 8, v.extractLsb' 8 8, v.extractLsb' 0 8]

/-- `bytesBE16`: the two bytes of v, most significant first (R10). -/
def bytesBE16 (v : Check) : List Byte := [v.extractLsb' 8 8, v.extractLsb' 0 8]

/-- A one-bit operand in a flags byte: bit 0; bits 7:1 are ignored (R72, R73, R76). -/
def flagOf (b : Byte) : Bool := b.getLsbD 0

/-- The flags byte of a one-bit operand, its reserved bits 0 (R72, R73, R76). -/
def flagByte (c : Bool) : Byte := if c then 0x01 else 0x00

end Sys2Proof.Machine
end

