-- ==== Sys2Proof/Syntax.lean ====
section
/-! DEFINITION. The host commands (spec 30_encoding R69 to R78, opcode_table.json): one constructor for each row of the table.

The eight rows of reserved opcodes share the mnemonic "(illegal)"; each carries the opcode bits its row's mask leaves free. -/

namespace Sys2Proof

/-- One host command on `CMD_IN`. -/
inductive Instr where
  /-- FEED, opcode 0x01 (R70): the operand n is the chunk's length. -/
  | feed (chunk : List Byte)
  /-- CLEAR, opcode 0x02 (R71). -/
  | clear
  /-- CONFIG, opcode 0x03 (R72): c is the new `useChecksum`, m the new `maxBufferSize`; bits 7:1 of the flags byte are ignored
  (R76), so they are no operand. -/
  | config (c : Bool) (m : Word)
  /-- ENCODE, opcode 0x04 (R73): c is the checksum mode; the operand n is the payload's length. -/
  | encode (c : Bool) (payload : List Byte)
  /-- Reserved opcode 0x00 (R75). -/
  | illegal00
  /-- Reserved opcode 0x05 (R75). -/
  | illegal05
  /-- Reserved opcodes 0x06 and 0x07 (R75). -/
  | illegal06 (low : BitVec 1)
  /-- Reserved opcodes 0x08 to 0x0F (R75). -/
  | illegal08 (low : BitVec 3)
  /-- Reserved opcodes 0x10 to 0x1F (R75). -/
  | illegal10 (low : BitVec 4)
  /-- Reserved opcodes 0x20 to 0x3F (R75). -/
  | illegal20 (low : BitVec 5)
  /-- Reserved opcodes 0x40 to 0x7F (R75). -/
  | illegal40 (low : BitVec 6)
  /-- Reserved opcodes 0x80 to 0xFF (R75). -/
  | illegal80 (low : BitVec 7)
  deriving DecidableEq, Repr

end Sys2Proof
end

