-- ==== Sys2Proof/WellFormed.lean ====
section
/-! DEFINITION. Which commands a byte string on `CMD_IN` can express: the length operands of FEED and ENCODE have 32 bits
(spec 30_encoding R68, R70, R73; 40_encoder R86). Every other operand is well formed by its type. -/

namespace Sys2Proof

/-- The number of data bytes a 32-bit length operand can count: 0 to 2^32-1 (R68). -/
def lengthFits (data : List Byte) : Bool := decide (data.length < 2 ^ 32)

/-- A command that has an encoding (R70 to R75). -/
def Instr.wellFormed : Instr → Bool
  | .feed chunk => lengthFits chunk
  | .clear => true
  | .config _ _ => true
  | .encode _ payload => lengthFits payload
  | .illegal00 => true
  | .illegal05 => true
  | .illegal06 _ => true
  | .illegal08 _ => true
  | .illegal10 _ => true
  | .illegal20 _ => true
  | .illegal40 _ => true
  | .illegal80 _ => true

end Sys2Proof
end

