-- ==== Sys2Proof/Decode.lean ====
section
/-! DEFINITION. Decoding and encoding of host commands (spec 30_encoding R69 to R78, R81; opcode_table.json).

The decoder reads the first command of a byte string; the command stream is self-delimiting (R74). -/

namespace Sys2Proof

open Sys2Proof.Machine

/-- Why a byte string does not yet begin with a whole command. No byte string is refused for its opcode: a reserved opcode is a
one-byte command (R75). -/
inductive DecodeReject where
  /-- There is no opcode byte. -/
  | noOpcode
  /-- The flags or length bytes after the opcode have not all arrived (R74, R184). -/
  | shortOperands
  /-- Fewer data bytes than the length operand says have arrived (R184). -/
  | shortData
  deriving DecidableEq, Repr

/-- The decoder's answer: a command with the bytes behind it, or why there is none yet. -/
inductive Decoded where
  | command (i : Instr) (rest : List Byte)
  | rejected (why : DecodeReject)
  deriving DecidableEq, Repr

/-- Splits n data bytes off and hands them to the command that carries them. -/
def takeData (mk : List Byte → Instr) (n : Nat) (bytes : List Byte) : Decoded :=
  if bytes.length < n then .rejected .shortData else .command (mk (bytes.take n)) (bytes.drop n)

/-- FEED after its opcode: BE32 n, then n chunk bytes (R70). -/
def decodeFeed : List Byte → Decoded
  | n3 :: n2 :: n1 :: n0 :: data => takeData .feed (beNat [n3, n2, n1, n0]) data
  | _ => .rejected .shortOperands

/-- CONFIG after its opcode: the flags byte, then BE32 m (R72, R76, R139). -/
def decodeConfig : List Byte → Decoded
  | flags :: m3 :: m2 :: m1 :: m0 :: rest =>
      .command (.config (flagOf flags) (BitVec.ofNat 32 (beNat [m3, m2, m1, m0]))) rest
  | _ => .rejected .shortOperands

/-- ENCODE after its opcode: the flags byte, BE32 n, then n payload bytes (R73, R76). -/
def decodeEncode : List Byte → Decoded
  | flags :: n3 :: n2 :: n1 :: n0 :: data => takeData (.encode (flagOf flags)) (beNat [n3, n2, n1, n0]) data
  | _ => .rejected .shortOperands

/-- The reserved opcodes by their row of the opcode table: the row whose fixed bits the byte has (R75, R78). -/
def decodeReserved (op : Byte) : Instr :=
  if op &&& 0x80 = 0x80 then .illegal80 (op.extractLsb' 0 7)
  else if op &&& 0xC0 = 0x40 then .illegal40 (op.extractLsb' 0 6)
  else if op &&& 0xE0 = 0x20 then .illegal20 (op.extractLsb' 0 5)
  else if op &&& 0xF0 = 0x10 then .illegal10 (op.extractLsb' 0 4)
  else if op &&& 0xF8 = 0x08 then .illegal08 (op.extractLsb' 0 3)
  else if op &&& 0xFE = 0x06 then .illegal06 (op.extractLsb' 0 1)
  else if op = 0x05 then .illegal05
  else .illegal00

/-- The first command of a byte string (R74, R78): byte 0 alone selects it. -/
def decode : List Byte → Decoded
  | [] => .rejected .noOpcode
  | op :: rest =>
      if op = 0x01 then decodeFeed rest
      else if op = 0x02 then .command .clear rest
      else if op = 0x03 then decodeConfig rest
      else if op = 0x04 then decodeEncode rest
      else .command (decodeReserved op) rest

/-- BE32 of a data length (R70, R73). -/
def lengthBytes (data : List Byte) : List Byte := bytesBE32 (BitVec.ofNat 32 data.length)

/-- The bytes of a well-formed command, reserved bits 0 (R70 to R76). -/
def encode : Instr → List Byte
  | .feed chunk => 0x01 :: (lengthBytes chunk ++ chunk)
  | .clear => [0x02]
  | .config c m => 0x03 :: flagByte c :: bytesBE32 m
  | .encode c payload => 0x04 :: flagByte c :: (lengthBytes payload ++ payload)
  | .illegal00 => [0x00]
  | .illegal05 => [0x05]
  | .illegal06 low => [0b0000011#7 ++ low]
  | .illegal08 low => [0b00001#5 ++ low]
  | .illegal10 low => [0b0001#4 ++ low]
  | .illegal20 low => [0b001#3 ++ low]
  | .illegal40 low => [0b01#2 ++ low]
  | .illegal80 low => [0b1#1 ++ low]

/-- How many bytes the command that a byte string begins with has (R74), or none while the bytes that say so are missing. -/
def commandLength : List Byte → Option Nat
  | [] => none
  | op :: rest =>
      if op = 0x01 then
        match rest with
        | n3 :: n2 :: n1 :: n0 :: _ => some (5 + beNat [n3, n2, n1, n0])
        | _ => none
      else if op = 0x03 then some 6
      else if op = 0x04 then
        match rest with
        | _ :: n3 :: n2 :: n1 :: n0 :: _ => some (6 + beNat [n3, n2, n1, n0])
        | _ => none
      else some 1

/-- The byte at place k of a row's bits: `CMD_IN` carries single bytes, so bits 8k+7..8k are byte k. -/
def rowByte (w k : Nat) : Byte := BitVec.ofNat 8 (w >>> (8 * k))

/-- The bytes of an instruction whose low `nbits` bits are w and whose other bits are 0, up to the end of that command. -/
def tableBytes (nbits w : Nat) : List Byte :=
  let given := (List.range (nbits / 8)).map (rowByte w)
  let total := (commandLength (given ++ List.replicate 6 0)).getD 0
  given ++ List.replicate (total - given.length) 0

/-- The instruction the decoder reads from those bytes. -/
def decodeTableWord (nbits w : Nat) : Option Instr :=
  match decode (tableBytes nbits w) with
  | .command i _ => some i
  | .rejected _ => none

end Sys2Proof
end

