-- ==== Sys2Proof/Config.lean ====
section
/-! DEFINITION. The parameters of the block (spec 00_scope R6, R16; 92_eei_decisions, "Parameters left OPEN").

Each parameter the spec leaves OPEN is an opaque constant with no body: a theorem about the machine holds for every legal value
of it (DESIGN CHOICE, safe, log entry 1). The operations of the machine take the parameters as one argument, a `Params`. -/

namespace Sys2Proof

/-- The three legal values of `FIXED_HEADER_SIZE` (R6, decision D3). -/
inductive FixedHeaderSize where
  /-- 2 bytes: Magic only. -/
  | magicOnly
  /-- 8 bytes: Magic, Length and LengthCheck (the default). -/
  | leadingFields
  /-- 10 bytes: every fixed field. -/
  | allFields
  deriving DecidableEq, Repr, Inhabited

/-- The number `FIXED_HEADER_SIZE` stands for in the length-limit check (R6, R117). -/
def FixedHeaderSize.bytes : FixedHeaderSize → Nat
  | .magicOnly => 2
  | .leadingFields => 8
  | .allFields => 10

/-- `OVERFLOW_POLICY`: what happens to the incoming chunk when the overflow guard fires (R6, R96, decision D4). -/
inductive OverflowPolicy where
  | dropChunk
  | keepChunkIfFits
  deriving DecidableEq, Repr, Inhabited

/-- The parameters of the block's transition (R6, R16). -/
structure Params where
  /-- M0, the first byte of `MAGIC`. -/
  m0 : Byte
  /-- M1, the second byte of `MAGIC`. -/
  m1 : Byte
  /-- `CHECKSUM16`: a total, deterministic function of a byte sequence, the empty one included (R6, R51, R87). -/
  checksum16 : List Byte → Check
  fixedHeaderSize : FixedHeaderSize
  overflowPolicy : OverflowPolicy
  /-- `BUF_CAPACITY - 1`: the legal capacities are 1 to 2^32-1 (R6). -/
  bufCapacityPred : Fin 4294967295
  /-- `DIAG_PRESENT`: whether the diagnostic channel exists (R6, R151). -/
  diagPresent : Bool

/-- `BUF_CAPACITY`, 1 to 2^32-1 (R6, R41). -/
abbrev Params.bufCapacity (P : Params) : Nat := P.bufCapacityPred.val + 1

/-- `MAGIC`'s first byte, OPEN (R6, D1). -/
opaque Config.magic0 : Byte
/-- `MAGIC`'s second byte, OPEN (R6, D1). -/
opaque Config.magic1 : Byte
/-- `CHECKSUM16`, OPEN (R6, D2, U2). -/
opaque Config.checksum16 : List Byte → Check
/-- `FIXED_HEADER_SIZE`, OPEN (R6, D3, U4). -/
opaque Config.fixedHeaderSize : FixedHeaderSize
/-- `OVERFLOW_POLICY`, OPEN (R6, D4, U5). -/
opaque Config.overflowPolicy : OverflowPolicy
/-- `BUF_CAPACITY - 1`, OPEN (R6, D5, U7). -/
opaque Config.bufCapacityPred : Fin 4294967295
/-- `DIAG_PRESENT`, OPEN (R6, D13, U8). -/
opaque Config.diagPresent : Bool

/-- The parameters of this block, every one of them open. -/
def Config.params : Params where
  m0 := Config.magic0
  m1 := Config.magic1
  checksum16 := Config.checksum16
  fixedHeaderSize := Config.fixedHeaderSize
  overflowPolicy := Config.overflowPolicy
  bufCapacityPred := Config.bufCapacityPred
  diagPresent := Config.diagPresent

end Sys2Proof
end

