-- ==== Sys2Proof/Machine/State.lean ====
section
/-! DEFINITION. The state of the block as plain data, the reasons a step can stop, and the state after reset
(spec 10_state R20 to R34; 20_memory R47; 60_exceptions R150, R151; 70_reset R175). -/

namespace Sys2Proof.Machine

/-- The conditions the block reports on `DIAG_OUT` (R151). -/
inductive DiagCode where
  /-- A FEED's projected size is above `maxBufferSize` (R96). -/
  | overflow
  /-- The Length field is 0 (R116). -/
  | lenZero
  /-- `Length + FIXED_HEADER_SIZE > maxBufferSize` (R117). -/
  | lenTooBig
  /-- The checksum of the Length bytes is not LengthCheck (R118). -/
  | lenCheck
  /-- PayloadCheck is not the expected value (R123). -/
  | payCheck
  /-- A reserved opcode (R140). -/
  | illegalCmd
  /-- CONFIG mid-frame or beyond capacity (R137, R138). -/
  | cfgRejected
  deriving DecidableEq, Repr

/-- An event on an output channel (R47). -/
inductive Event where
  /-- `Payload(p)` on `PAYLOAD_OUT`, the bytes by value (R48, R49). -/
  | payload (bytes : List Byte)
  /-- `Frame(f)` on `FRAME_OUT`. -/
  | frame (bytes : List Byte)
  /-- `Diag(code)` on `DIAG_OUT`, nothing but its code (R151). -/
  | diag (code : DiagCode)
  deriving DecidableEq, Repr

/-- An assertion of `RST` (R47, R175), with what it finds the block doing. -/
inductive ResetInput where
  /-- No command is in progress. -/
  | betweenCommands
  /-- The command at the head of `CMD_IN` is in progress and so many of its events have been delivered on each channel. The order
  between channels is not fixed (R53), so each channel has its own count. -/
  | duringCommand (payloads frames diags : Nat)
  deriving DecidableEq, Repr

/-- The control point of the deframer (R23). -/
inductive Phase where
  | seekingHeader
  | haveHeader
  | haveLength
  deriving DecidableEq, Repr

/-- The block's architectural state (R20) and, after it, the channels of R47 as the model holds them. -/
structure State where
  /-- The unconsumed tail of the input stream, oldest byte first (R21). -/
  buf : List Byte
  /-- A Magic stands at `buf[0..2)` (R22). -/
  headerFound : Bool
  /-- The validated Length, or 0 while it is not known (R24). -/
  pendingLength : Word
  /-- 1: full-integrity mode; 0: checksum-light mode (R27). -/
  useChecksum : Bool
  /-- The ceiling on buffered bytes (R28). -/
  maxBufferSize : Word
  /-- `CMD_IN`: the bytes the host has sent and the block has not taken, in order (R50, R69). The model's own field, DESIGN CHOICE,
  log entry 3. -/
  cmdIn : List Byte
  /-- `RST`: an assertion the block has not taken yet (R175). The model's own field, DESIGN CHOICE, log entry 4. -/
  rst : Option ResetInput
  /-- `PAYLOAD_OUT`, `FRAME_OUT` and `DIAG_OUT`: the events delivered so far, in rule order (R53, R190). The model's own field,
  DESIGN CHOICE, log entry 5. -/
  events : List Event
  deriving DecidableEq, Repr

/-- `MAX_BUFFER_SIZE_RESET`, 1 MiB (R6, R28). -/
def maxBufferSizeReset : Word := 0x00100000

/-- `USE_CHECKSUM_RESET` (R6, R27; the spec's decision D6). -/
def useChecksumReset : Bool := true

/-- The machine right after hardware reset, before the host has sent anything (R34, R175). -/
def State.reset : State where
  buf := []
  headerFound := false
  pendingLength := 0
  useChecksum := useChecksumReset
  maxBufferSize := maxBufferSizeReset
  cmdIn := []
  rst := none
  events := []

/-- The reasons the machine stops with a fault. There is none: no condition of the block traps or stops it (R150), so no step
raises one. -/
inductive Fault where
  deriving DecidableEq, Repr

/-- The reasons a step has no meaning. -/
inductive Refusal where
  /-- An instruction with no meaning yet, raised by `exec`'s arms only. Safe: nothing can be proved about its effect. -/
  | notModelled (mnemonic : String)
  /-- Raised by ENCODE of a payload above 2^32-1 bytes, which no command on `CMD_IN` can express: a model with unbounded lists
  must refuse it (R86, U1). Safe: the model stops. -/
  | payloadTooLong
  deriving DecidableEq, Repr

end Sys2Proof.Machine
end

