-- ==== Sys2Proof/Machine/Flags.lean ====
section
/-! DEFINITION. What the block computes from its flags (spec 10_state R22, R23, R30) and the codes of the conditions it reports
(60_exceptions R151). It has no condition codes and no arithmetic flags (R30). -/

namespace Sys2Proof.Machine

/-- The phase, derived from `headerFound` and `pendingLength` and not stored (R23). -/
def State.phase (s : State) : Phase :=
  if s.headerFound then (if s.pendingLength = 0 then .haveHeader else .haveLength) else .seekingHeader

/-- The 8-bit code a `Diag` event carries (R151). -/
def DiagCode.code : DiagCode → Byte
  | .overflow => 0x01
  | .lenZero => 0x02
  | .lenTooBig => 0x03
  | .lenCheck => 0x04
  | .payCheck => 0x05
  | .illegalCmd => 0x10
  | .cfgRejected => 0x11

end Sys2Proof.Machine
end

