-- ==== Sys2Proof/Machine/Ops.lean ====
section
/-! DEFINITION. The named operations over the block's state (spec 00_scope R11, R12; 41_feed R96; 42_parse_states R115; 70_reset
R175).

There is no operation that takes or leaves an exception: no condition of the block traps (60_exceptions R150). What stands in its
place is the recovery actions the conditions share, the narrow resync and the full reset, and the hardware reset. -/

namespace Sys2Proof.Machine

/-- The most bytes an append may leave in the buffer: the ceiling `maxBufferSize`, and never more than the buffer can hold (R20, R41).
CONFIG keeps the ceiling within `BUF_CAPACITY` (R138), so the capacity is the smaller one only where it is below the reset ceiling,
for which the spec gives no rule (DESIGN CHOICE, log entry 2). -/
def State.ceiling (P : Params) (s : State) : Nat := min s.maxBufferSize.toNat P.bufCapacity

/-- `chk(s)`: the one checksum function, for every range (R12). -/
def chk (P : Params) (bytes : List Byte) : Check := P.checksum16 bytes

/-- `BufRead(i, n)`: the only read of the payload buffer (R11). -/
def State.bufRead (s : State) (i n : Nat) : List Byte := slice s.buf i n

/-- `BufAppend(bytes)` (R11). -/
def State.bufAppend (s : State) (bytes : List Byte) : State := { s with buf := s.buf ++ bytes }

/-- `BufDrop(k)`: discards the k oldest bytes (R11). -/
def State.bufDrop (s : State) (k : Nat) : State := { s with buf := s.buf.drop k }

/-- `BufClear()` (R11). -/
def State.bufClear (s : State) : State := { s with buf := [] }

/-- Delivers one event (R11, R47). -/
def State.emit (s : State) (e : Event) : State := { s with events := s.events ++ [e] }

/-- The event list a condition adds: one `Diag`, or nothing where the channel does not exist (R151, R154). -/
def diagEvents (P : Params) (c : DiagCode) : List Event := if P.diagPresent then [.diag c] else []

/-- `diag c` (R11, R151): never changes the block's state (R154). -/
def State.diag (P : Params) (s : State) (c : DiagCode) : State := { s with events := s.events ++ diagEvents P c }

/-- `headerFound <- 0; pendingLength <- 0`: back to SEEKING_HEADER (R96, R115, R122, R135). -/
def State.toSeeking (s : State) : State := { s with headerFound := false, pendingLength := 0 }

/-- The DecoderState in its empty initial form, the configuration kept (R34, R135, R176). -/
def State.clearDecoder (s : State) : State := s.bufClear.toSeeking

/-- `narrowResync()`: drops only `buf[0]` (R115). -/
def State.narrowResync (s : State) : State := (s.bufDrop 1).toSeeking

/-- A malformed frame: its condition is reported and one byte is dropped (R116 to R118, R123). -/
def State.reject (P : Params) (s : State) (c : DiagCode) : State := (s.diag P c).narrowResync

/-- `overflowReset()`, the full reset (R96). -/
def State.overflowReset (P : Params) (s : State) : State := s.clearDecoder.diag P .overflow

/-- `RESET()` (R175): the five fields of the architectural state. Events already delivered stay delivered (R57). -/
def State.hardReset (s : State) : State :=
  { s.clearDecoder with useChecksum := useChecksumReset, maxBufferSize := maxBufferSizeReset }

/-- Keeps, of an event list, the first so many events of each channel (R53, R57). -/
def deliverUpTo : Nat → Nat → Nat → List Event → List Event
  | _, _, _, [] => []
  | p, f, d, .payload b :: es => if p = 0 then deliverUpTo 0 f d es else .payload b :: deliverUpTo (p - 1) f d es
  | p, f, d, .frame b :: es => if f = 0 then deliverUpTo p 0 d es else .frame b :: deliverUpTo p (f - 1) d es
  | p, f, d, .diag c :: es => if d = 0 then deliverUpTo p f 0 es else .diag c :: deliverUpTo p f (d - 1) es

/-- The sequence of payloads an event list carries (R190). -/
def payloadsOf (es : List Event) : List (List Byte) :=
  es.filterMap fun | .payload b => some b | .frame _ => none | .diag _ => none

/-- The sequence of frames an event list carries (R190). -/
def framesOf (es : List Event) : List (List Byte) :=
  es.filterMap fun | .payload _ => none | .frame b => some b | .diag _ => none

/-- The sequence of diagnostic codes an event list carries (R190). -/
def diagsOf (es : List Event) : List DiagCode :=
  es.filterMap fun | .payload _ => none | .frame _ => none | .diag c => some c

end Sys2Proof.Machine
end

