-- ==== Sys2Proof/Machine/Parse.lean ====
section
/-! DEFINITION. The parse steps and the parse loop (spec 41_feed R97, R98; 42_parse_states R110 to R124). -/

namespace Sys2Proof.Machine

/-- How a parse step ends (R97): with `continue`, or with `wait`. -/
inductive Progress where
  | again (s : State)
  | wait (s : State)
  deriving DecidableEq, Repr

/-- `firstMagic`: the least index at which the Magic occurs; every index is examined (R111). -/
def firstMagic (P : Params) : List Byte → Option Nat
  | [] => none
  | [_] => none
  | a :: b :: rest => if a = P.m0 ∧ b = P.m1 then some 0 else (firstMagic P (b :: rest)).map (· + 1)

/-- What a search with no Magic found keeps: a lone trailing M0 (R113). -/
def retained (P : Params) (buf : List Byte) : List Byte := if buf.getLast? = some P.m0 then [P.m0] else []

/-- SEEKING_HEADER (R111 to R113). -/
def seekStep (P : Params) (s : State) : Progress :=
  match firstMagic P s.buf with
  | some i => .again { s.bufDrop i with headerFound := true, pendingLength := 0 }
  | none => .wait { s with buf := retained P s.buf }

/-- HAVE_HEADER (R114, R116 to R119), the checks in the order R124 gives. Sums are exact (R8, R117). -/
def headerStep (P : Params) (s : State) : Progress :=
  if s.buf.length < 8 then .wait s
  else
    let lengthField := s.bufRead 2 4
    let L := beNat lengthField
    if L = 0 then .again (s.reject P .lenZero)
    else if s.maxBufferSize.toNat < L + P.fixedHeaderSize.bytes then .again (s.reject P .lenTooBig)
    else if chk P lengthField ≠ be16 (s.bufRead 6 2) then .again (s.reject P .lenCheck)
    else .again { s with pendingLength := BitVec.ofNat 32 L }

/-- The PayloadCheck a frame must carry: the payload's checksum, or in light mode the complement of LengthCheck (R64, R121). -/
def payloadCheck (P : Params) (useChecksum : Bool) (lengthCheck : Check) (payload : List Byte) : Check :=
  if useChecksum then chk P payload else ~~~ lengthCheck

/-- The emission: the payload is delivered, then the whole frame is dropped (R122). -/
def State.acceptFrame (s : State) (L : Nat) : State :=
  ((s.emit (.payload (s.bufRead 8 L))).bufDrop (10 + L)).toSeeking

/-- HAVE_LENGTH (R120 to R123). -/
def payloadStep (P : Params) (s : State) : Progress :=
  let L := s.pendingLength.toNat
  if s.buf.length < 10 + L then .wait s
  else if payloadCheck P s.useChecksum (be16 (s.bufRead 6 2)) (s.bufRead 8 L) = be16 (s.bufRead (8 + L) 2) then
    .again (s.acceptFrame L)
  else .again (s.reject P .payCheck)

/-- One parse step, chosen only by the phase (R97, R110). -/
def parseStep (P : Params) (s : State) : Progress :=
  match s.phase with
  | .seekingHeader => seekStep P s
  | .haveHeader => headerStep P s
  | .haveLength => payloadStep P s

/-- At most `fuel` parse steps, ending at the first `wait` (R97). -/
def parseLoop (P : Params) : Nat → State → State
  | 0, s => s
  | fuel + 1, s =>
      match parseStep P s with
      | .again t => parseLoop P fuel t
      | .wait t => t

/-- The parse loop (R97), with the number of steps R98 allows it: it always ends in a `wait` (log entry 9). -/
def parse (P : Params) (s : State) : State := parseLoop P (3 * (s.buf.length + 1) + 1) s

end Sys2Proof.Machine
end

