-- ==== Sys2Proof/Machine/Builder.lean ====
section
/-! DEFINITION. The frame builder, ENCODE (spec 30_encoding R60 to R64; 40_encoder R85 to R90). -/

namespace Sys2Proof.Machine

/-- The frame of payload p in mode c (R60, R85): Magic, Length, LengthCheck, payload, PayloadCheck, nothing escaped (R66). It is asked
only about payloads that `lengthFits` lets through, or its answer is discarded (log entries 7, 10). -/
def buildFrame (P : Params) (c : Bool) (p : List Byte) : List Byte :=
  let lb := bytesBE32 (BitVec.ofNat 32 p.length)
  let lc := chk P lb
  [P.m0, P.m1] ++ lb ++ bytesBE16 lc ++ p ++ bytesBE16 (payloadCheck P c lc p)

/-- ENCODE (R85): one `Frame` event and no state change; a payload no command can express is refused (R86, U1). -/
def encodePayload (P : Params) (c : Bool) (p : List Byte) (s : State) : Host.Outcome State Fault Refusal :=
  if lengthFits p then .next (s.emit (.frame (buildFrame P c p))) else .refused .payloadTooLong

/-- The meaning of ENCODE (R85). -/
def execEncode (c : Bool) (p : List Byte) (s : State) : Host.Outcome State Fault Refusal := encodePayload Config.params c p s

end Sys2Proof.Machine
end

