-- ==== Sys2Proof/Machine/Control.lean ====
section
/-! DEFINITION. The control commands: CLEAR, CONFIG and the reserved opcodes (spec 43_control R135 to R140). -/

namespace Sys2Proof.Machine

/-- The meaning of CLEAR (R135): the DecoderState is emptied, the configuration kept, no event. -/
def execClear (s : State) : Host.Outcome State Fault Refusal := .next s.clearDecoder

/-- CONFIG (R136): rejected mid-frame (R137) or beyond capacity (R138), else both configuration fields are set. -/
def configure (P : Params) (c : Bool) (m : Word) (s : State) : State :=
  if s.headerFound then s.diag P .cfgRejected
  else if P.bufCapacity < m.toNat then s.diag P .cfgRejected
  else { s with useChecksum := c, maxBufferSize := m }

/-- The meaning of CONFIG (R136). -/
def execConfig (c : Bool) (m : Word) (s : State) : Host.Outcome State Fault Refusal := .next (configure Config.params c m s)

/-- A reserved opcode (R140): one `Diag(ILLEGAL_CMD)`, no state change. -/
def illegalCommand (P : Params) (s : State) : State := s.diag P .illegalCmd

/-- The meaning of the reserved opcode 0x00 (R140). -/
def execIllegal00 (s : State) : Host.Outcome State Fault Refusal := .next (illegalCommand Config.params s)

/-- The meaning of the reserved opcode 0x05 (R140). -/
def execIllegal05 (s : State) : Host.Outcome State Fault Refusal := .next (illegalCommand Config.params s)

/-- The meaning of the reserved opcodes 0x06 and 0x07 (R140): which of them it is changes nothing. -/
def execIllegal06 (_low : BitVec 1) (s : State) : Host.Outcome State Fault Refusal :=
  .next (illegalCommand Config.params s)

/-- The meaning of the reserved opcodes 0x08 to 0x0F (R140). -/
def execIllegal08 (_low : BitVec 3) (s : State) : Host.Outcome State Fault Refusal :=
  .next (illegalCommand Config.params s)

/-- The meaning of the reserved opcodes 0x10 to 0x1F (R140). -/
def execIllegal10 (_low : BitVec 4) (s : State) : Host.Outcome State Fault Refusal :=
  .next (illegalCommand Config.params s)

/-- The meaning of the reserved opcodes 0x20 to 0x3F (R140). -/
def execIllegal20 (_low : BitVec 5) (s : State) : Host.Outcome State Fault Refusal :=
  .next (illegalCommand Config.params s)

/-- The meaning of the reserved opcodes 0x40 to 0x7F (R140). -/
def execIllegal40 (_low : BitVec 6) (s : State) : Host.Outcome State Fault Refusal :=
  .next (illegalCommand Config.params s)

/-- The meaning of the reserved opcodes 0x80 to 0xFF (R140). -/
def execIllegal80 (_low : BitVec 7) (s : State) : Host.Outcome State Fault Refusal :=
  .next (illegalCommand Config.params s)

end Sys2Proof.Machine
end

