-- ==== Sys2Proof/Machine/Deframer.lean ====
section
/-! DEFINITION. FEED and the overflow guard (spec 41_feed R95, R96; 20_memory R41). -/

namespace Sys2Proof.Machine

/-- The overflow guard's comparison: the projected size, exact, is above `maxBufferSize` (R96), or above `BUF_CAPACITY` where that is
smaller (log entry 2). -/
abbrev State.Overflows (P : Params) (s : State) (n : Nat) : Prop := s.ceiling P < s.buf.length + n

/-- Whether the chunk that made the guard fire is discarded too (R96, R102). -/
abbrev State.DropsChunk (P : Params) (s : State) (n : Nat) : Prop :=
  P.overflowPolicy = .dropChunk ∨ s.ceiling P < n

/-- FEED (R95). -/
def feed (P : Params) (chunk : List Byte) (s : State) : State :=
  if s.Overflows P chunk.length then
    if s.DropsChunk P chunk.length then s.overflowReset P
    else parse P ((s.overflowReset P).bufAppend chunk)
  else parse P (s.bufAppend chunk)

/-- The meaning of FEED (R95): it never fails. -/
def execFeed (chunk : List Byte) (s : State) : Host.Outcome State Fault Refusal := .next (feed Config.params chunk s)

end Sys2Proof.Machine
end

