-- ==== Sys2Proof/Machine/Dispatch.lean ====
section
/-! DEFINITION. One arm for each host command (spec opcode_table.json, 30_encoding R78). -/

namespace Sys2Proof.Machine

def exec (i : Instr) (s : State) : Host.Outcome State Fault Refusal :=
  match i with
  | .feed chunk => Sys2Proof.Machine.execFeed chunk s
  | .clear => Sys2Proof.Machine.execClear s
  | .config c m => Sys2Proof.Machine.execConfig c m s
  | .encode c payload => Sys2Proof.Machine.execEncode c payload s
  | .illegal00 => Sys2Proof.Machine.execIllegal00 s
  | .illegal05 => Sys2Proof.Machine.execIllegal05 s
  | .illegal06 low => Sys2Proof.Machine.execIllegal06 low s
  | .illegal08 low => Sys2Proof.Machine.execIllegal08 low s
  | .illegal10 low => Sys2Proof.Machine.execIllegal10 low s
  | .illegal20 low => Sys2Proof.Machine.execIllegal20 low s
  | .illegal40 low => Sys2Proof.Machine.execIllegal40 low s
  | .illegal80 low => Sys2Proof.Machine.execIllegal80 low s

end Sys2Proof.Machine
end

