-- ==== Sys2Proof/Machine/Intake.lean ====
section
/-! DEFINITION. What a step does around `exec`: taking a command from `CMD_IN`, taking an asserted `RST`, and placing a command at
the head of `CMD_IN` (spec 20_memory R50, R57; 30_encoding R74; 70_reset R175, R184). -/

namespace Sys2Proof.Machine

/-- The whole command at the head of `CMD_IN`, and the state with its bytes taken; none while its bytes have not all arrived (R50,
R74, R184). -/
def fetch (s : State) : Option (Instr × State) :=
  match decode s.cmdIn with
  | .command i rest => some (i, { s with cmdIn := rest })
  | .rejected _ => none

/-- The events the command at the head of `CMD_IN` would deliver if nothing aborted it. -/
def commandEvents (s : State) : List Event :=
  match fetch s with
  | none => []
  | some (i, taken) =>
      match exec i taken with
      | .next t => t.events.drop s.events.length
      | .fault _ => []
      | .refused _ => []

/-- The bytes on `CMD_IN` behind the command in progress, whole or short: its unread bytes are discarded (R175). -/
def behindCommand (s : State) : List Byte :=
  match fetch s with
  | none => []
  | some (_, taken) => taken.cmdIn

/-- Takes an asserted `RST` (R57, R175): the reset state; of a command in progress the events already delivered stay delivered, the
rest are never produced and its bytes are discarded. Bytes no command in progress has claimed stay on `CMD_IN` (DESIGN CHOICE, log
entry 4). -/
def takeReset (r : ResetInput) (s : State) : State :=
  match r with
  | .betweenCommands => { s.hardReset with rst := none }
  | .duringCommand p f d =>
      { s.hardReset with
        rst := none
        cmdIn := behindCommand s
        events := s.events ++ deliverUpTo p f d (commandEvents s) }

/-- s with the bytes of one command at the head of `CMD_IN` and no `RST` asserted. -/
def placeCommand (bytes : List Byte) (s : State) : State := { s with cmdIn := bytes ++ s.cmdIn, rst := none }

end Sys2Proof.Machine
end

