-- ==== Sys2Proof/Machine/Step.lean ====
section
/-! DEFINITION. One step of the block (spec 00_scope R5; 20_memory R50, R52, R57; 70_reset R175). -/

namespace Sys2Proof.Machine

/-- An asserted `RST` is taken before anything else (R175); else the whole command at the head of `CMD_IN` is taken and executed
as one transition (R5, R50); else the block is idle or waits for the missing bytes, holding its whole state (R166, R184; a stuck
state of U11 is one that this step maps to itself, log entry 3). -/
def step (s : State) : Host.Outcome State Fault Refusal :=
  match s.rst with
  | some r => .next (takeReset r s)
  | none =>
      match fetch s with
      | some (i, taken) => exec i taken
      | none => .next s

/-- s with the instruction of a table row at the head of `CMD_IN`, so that the very next step runs it (log entry 8). -/
def State.withFetchWord (s : State) (nbits w : Nat) : State := placeCommand (tableBytes nbits w) s

end Sys2Proof.Machine
end

