-- ==== Sys2Proof/Machine/Pseudo.lean ====
section
/-! DEFINITION. The pseudo-commands, their expansion into host commands, and the bytes of a command listing (spec 30_encoding R79,
R80, decision D17). They are no instructions of their own: each is a list of commands. -/

namespace Sys2Proof.Machine

/-- A pseudo-command (R80). -/
inductive Pseudo where
  /-- `FEEDB xx` -/
  | feedByte (b : Byte)
  /-- `FEEDEACH {b0 … bk}` -/
  | feedEach (bytes : List Byte)
  /-- `FEEDSPLIT k, {bytes}` with k = `kPred` + 1, so k >= 1 -/
  | feedSplit (kPred : Nat) (bytes : List Byte)
  /-- `FEEDFRAME csum=c, {payload}` -/
  | feedFrame (c : Bool) (payload : List Byte)
  /-- `INIT csum=c, max=m`, the source's constructor (R35, R178) -/
  | init (c : Bool) (m : Word)
  deriving DecidableEq, Repr

/-- Consecutive pieces of k bytes, the last one shorter; `fuel` is a bound on how many pieces there are. -/
def pieces (k : Nat) : Nat → List Byte → List (List Byte)
  | _, [] => []
  | 0, _ :: _ => []
  | fuel + 1, b :: bytes => (b :: bytes).take k :: pieces k fuel ((b :: bytes).drop k)

/-- The real commands a pseudo-command stands for, whether or not they have an encoding (R80). -/
def Pseudo.commands (P : Params) : Pseudo → List Instr
  | .feedByte b => [.feed [b]]
  | .feedEach bytes => bytes.map fun b => .feed [b]
  | .feedSplit kPred bytes => (pieces (kPred + 1) bytes.length bytes).map .feed
  | .feedFrame c payload => [.feed (buildFrame P c payload)]
  | .init c m => [.clear, .config c m]

/-- The expansion of a pseudo-command (R80), or none where one of its commands has no encoding: a FEEDFRAME whose frame is longer than
2^32-1 bytes, so that no FEED can carry it (a payload of more than 2^32-11 bytes, those of more than 2^32-1 among them), or a FEEDSPLIT
with a piece as long. The spec does not say what the assembler does there; that it refuses the line and never truncates a length, as
R86 has it for ENCODE, is the model's choice (DESIGN CHOICE, log entry 10). -/
def Pseudo.expand (P : Params) (p : Pseudo) : Option (List Instr) :=
  if (p.commands P).all Instr.wellFormed then some (p.commands P) else none

/-- One line of a command listing (R79). How it is spelled as text is the spec's notation and no part of the block. -/
inductive ListingLine where
  | command (i : Instr)
  | pseudo (p : Pseudo)
  /-- `.byte xx`, one raw byte on `CMD_IN`. -/
  | rawByte (b : Byte)
  deriving DecidableEq, Repr

/-- The bytes that a line of a listing puts on `CMD_IN` (R79), or none where a command of it has no encoding: a FEED or an ENCODE with
more than 2^32-1 bytes of data, and what `Pseudo.expand` refuses (DESIGN CHOICE, log entry 10). -/
def ListingLine.bytes (P : Params) : ListingLine → Option (List Byte)
  | .command i => if i.wellFormed then some (encode i) else none
  | .pseudo p => (p.expand P).map (·.flatMap encode)
  | .rawByte b => some [b]

/-- The bytes that a listing puts on `CMD_IN`, or none where one of its lines has none (log entry 10). -/
def assemble (P : Params) : List ListingLine → Option (List Byte)
  | [] => some []
  | line :: listing => (line.bytes P).bind fun bytes => (assemble P listing).map (bytes ++ ·)

end Sys2Proof.Machine
end

