-- ==== Sys2Proof/Machine/Transition.lean ====
section
/-! DEFINITION. The block's transition with its parameters as an argument (spec 00_scope R6, R16). `exec` is this transition at the
open parameters of Sys2Proof/Config.lean. -/

namespace Sys2Proof.Machine

/-- One command as one transition of a block with the parameters P (R5, R16). -/
def transition (P : Params) (i : Instr) (s : State) : Host.Outcome State Fault Refusal :=
  match i with
  | .feed chunk => .next (feed P chunk s)
  | .clear => .next s.clearDecoder
  | .config c m => .next (configure P c m s)
  | .encode c payload => encodePayload P c payload s
  | .illegal00 => .next (illegalCommand P s)
  | .illegal05 => .next (illegalCommand P s)
  | .illegal06 _ => .next (illegalCommand P s)
  | .illegal08 _ => .next (illegalCommand P s)
  | .illegal10 _ => .next (illegalCommand P s)
  | .illegal20 _ => .next (illegalCommand P s)
  | .illegal40 _ => .next (illegalCommand P s)
  | .illegal80 _ => .next (illegalCommand P s)

end Sys2Proof.Machine
end

