-- ==== Sys2Proof/Safety.lean ====
section
/-! DEFINITION. The terms the claims use: the quiescent invariant, acceptable frames, runs of commands (spec 10_state R29;
30_encoding R65; 41_feed R97 to R103; 60_exceptions R154; 70_reset R190). -/

namespace Sys2Proof.Safety

open Sys2Proof.Machine

/-- The Magic occurs at index i (R111). -/
def MagicAt (P : Params) (buf : List Byte) (i : Nat) : Prop := buf[i]? = some P.m0 ∧ buf[i + 1]? = some P.m1

/-- The two invariants that hold at every point, inside the parse loop too (R29). -/
structure LoopInvariant (P : Params) (s : State) : Prop where
  pendingNeedsHeader : s.pendingLength ≠ 0 → s.headerFound = true
  headerIsMagic : s.headerFound = true → s.buf.take 2 = [P.m0, P.m1]

/-- The state at a command boundary (R29), and beside it that a buffer with a found header is within the ceiling (R41, R96; within a
capacity below `maxBufferSize` by log entry 2). -/
structure Quiescent (P : Params) (s : State) : Prop where
  seeking : s.phase = .seekingHeader → s.pendingLength = 0 ∧ (s.buf = [] ∨ s.buf = [P.m0])
  header : s.phase = .haveHeader → s.buf.take 2 = [P.m0, P.m1] ∧ s.buf.length < 8
  length : s.phase = .haveLength →
    s.pendingLength.toNat + P.fixedHeaderSize.bytes ≤ s.maxBufferSize.toNat
      ∧ s.buf.take 2 = [P.m0, P.m1]
      ∧ beNat (slice s.buf 2 4) = s.pendingLength.toNat
      ∧ P.checksum16 (slice s.buf 2 4) = be16 (slice s.buf 6 2)
      ∧ 8 ≤ s.buf.length ∧ s.buf.length < 10 + s.pendingLength.toNat
  sized : s.headerFound = true → s.buf.length ≤ s.ceiling P

/-- An acceptable frame with payload p for a deframer in the configuration (c, max) (R65). -/
structure AcceptableFrame (P : Params) (c : Bool) (max : Word) (f p : List Byte) : Prop where
  frameLength : f.length = 10 + p.length
  magic : f.take 2 = [P.m0, P.m1]
  lengthField : beNat (slice f 2 4) = p.length
  nonEmpty : 1 ≤ p.length
  withinLimit : p.length + P.fixedHeaderSize.bytes ≤ max.toNat
  lengthCheck : P.checksum16 (slice f 2 4) = be16 (slice f 6 2)
  payload : slice f 8 p.length = p
  payloadCheck : be16 (slice f (8 + p.length) 2) = if c then P.checksum16 p else ~~~ be16 (slice f 6 2)

/-- The payloads are those of acceptable frames that stand in the stream from index lo on, in order and without overlap (R99). -/
def FramesInStream (P : Params) (c : Bool) (max : Word) (stream : List Byte) : Nat → List (List Byte) → Prop
  | _, [] => True
  | lo, p :: ps =>
      ∃ i, lo ≤ i ∧ AcceptableFrame P c max (slice stream i (10 + p.length)) p
        ∧ FramesInStream P c max stream (i + 10 + p.length) ps

/-- k `continue` steps from s and then one `wait` step that leaves t (R97). -/
inductive ParseRun (P : Params) : Nat → State → State → Prop where
  | wait {s t : State} : parseStep P s = .wait t → ParseRun P 0 s t
  | again {k : Nat} {s u t : State} : parseStep P s = .again u → ParseRun P k u t → ParseRun P (k + 1) s t

/-- Commands executed one after the other (R52, R190), stopping at the first that does not complete. -/
def execAll (P : Params) : List Instr → State → Host.Outcome State Fault Refusal
  | [], s => .next s
  | i :: is, s =>
      match transition P i s with
      | .next t => execAll P is t
      | .fault r => .fault r
      | .refused r => .refused r

/-- A FEED of n bytes does not make the overflow guard fire (R96). -/
def Fits (P : Params) (s : State) (n : Nat) : Prop := s.buf.length + n ≤ s.ceiling P

/-- No FEED of the sequence makes the overflow guard fire (R103). -/
def NoOverflow (P : Params) : List (List Byte) → State → Prop
  | [], _ => True
  | chunk :: chunks, s => Fits P s chunk.length ∧ ∀ t, transition P (.feed chunk) s = .next t → NoOverflow P chunks t

/-- Two states agree on everything but the `Diag` events delivered (R154). -/
structure SameButDiags (s t : State) : Prop where
  buf : s.buf = t.buf
  headerFound : s.headerFound = t.headerFound
  pendingLength : s.pendingLength = t.pendingLength
  useChecksum : s.useChecksum = t.useChecksum
  maxBufferSize : s.maxBufferSize = t.maxBufferSize
  payloads : payloadsOf s.events = payloadsOf t.events
  frames : framesOf s.events = framesOf t.events

end Sys2Proof.Safety
end

