-- ==== Sys2Proof/Certificates/Slice0/Obligations.lean ====
section
/-! DEFINITION. The statements about the block, each a `Prop` taken from the spec's rules. Every one holds for every legal value of the
open parameters, because they are opaque (log entry 1), or for every `Params` where it says so: a statement about a chunk or a frame of some length
speaks of `transition P`, since some capacities have no room for it; `exec` is `transition Config.params`. None reads the order of events across channels inside one command (R53). -/

open Sys2Proof Sys2Proof.Machine Sys2Proof.Safety

/-! ## Command encoding -/

/-- Decoding the bytes of a well-formed command gives it back, with every operand, and leaves what stands behind it (R69 to R75). -/
def Obligations.DecodeUndoesEncode : Prop :=
  ∀ (i : Instr) (rest : List Byte), i.wellFormed = true → decode (encode i ++ rest) = .command i rest

/-- A decoded command's bytes are those of its encoding, but for the reserved bits of a flags byte (R70 to R76). -/
def Obligations.EncodeUndoesDecodeButForReservedBits : Prop :=
  ∀ (bytes : List Byte) (i : Instr) (rest : List Byte), decode bytes = .command i rest →
    i.wellFormed = true ∧
      (encode i ++ rest = bytes ∨
        ∃ op flags tail, (op = 0x03 ∨ op = 0x04) ∧ bytes = op :: flags :: tail ∧
          encode i ++ rest = op :: (flags &&& 0x01) :: tail)

/-- R76: CONFIG and ENCODE with nonzero reserved bits 7:1 in byte 1 decode as the same command with those bits cleared. -/
def Obligations.ReservedFlagBitsAreIgnored : Prop :=
  ∀ (op flags : Byte) (tail : List Byte), (op = 0x03 ∨ op = 0x04) →
    decode (op :: flags :: tail) = decode (op :: (flags &&& 0x01) :: tail)

/-- A byte string does not yet hold a command exactly when it is shorter than the length its first bytes give (R74, R184). -/
def Obligations.OnlyShortCommandsAreNotTaken : Prop :=
  ∀ bytes : List Byte,
    (∃ why, decode bytes = .rejected why) ↔ ∀ k, commandLength bytes = some k → bytes.length < k

/-- R74: the command stream is self-delimiting: bytes behind a command do not change how it is read. -/
def Obligations.CommandStreamIsSelfDelimiting : Prop :=
  ∀ (bytes more : List Byte) (i : Instr) (rest : List Byte),
    decode bytes = .command i rest → decode (bytes ++ more) = .command i (rest ++ more)

/-- R75, R140: a reserved opcode is a one-byte command that changes no state and emits `Diag(ILLEGAL_CMD)`; the block reads the next byte
as the next opcode. -/
def Obligations.ReservedOpcodesAreIllegalCommands : Prop :=
  ∀ (op : Byte) (rest : List Byte), (op = 0x00 ∨ 5 ≤ op.toNat) →
    ∃ i, decode (op :: rest) = .command i rest ∧ encode i = [op] ∧
      ∀ s : State, exec i s =
        .next { s with events := s.events ++ if Config.diagPresent then [.diag .illegalCmd] else [] }

/-- R81: the spec's encoding examples decode to the commands they stand for. -/
def Obligations.EncodingExamplesDecode : Prop :=
  decode [0x02] = .command .clear [] ∧
  decode [0x03, 0x00, 0x00, 0x10, 0x00, 0x00] = .command (.config false 1048576) [] ∧
  decode [0x01, 0x00, 0x00, 0x00, 0x01, 0x5A] = .command (.feed [0x5A]) [] ∧
  decode [0x04, 0x01, 0x00, 0x00, 0x00, 0x02, 0x68, 0x69] = .command (.encode true [0x68, 0x69]) [] ∧
  decode [0x01, 0x00, 0x00, 0x00, 0x00] = .command (.feed []) []

/-! ## Frame builder -/

/-- R85, R88: ENCODE emits exactly one `Frame`, laid out as the pseudocode says, and changes nothing else. -/
def Obligations.EncodeEmitsItsFrame : Prop :=
  ∀ (c : Bool) (p : List Byte) (s : State), p.length < 2 ^ 32 →
    let lb := bytesBE32 (BitVec.ofNat 32 p.length)
    let lc := Config.checksum16 lb
    let pc := if c then Config.checksum16 p else ~~~ lc
    exec (.encode c p) s = .next { s with
      events := s.events ++ [.frame ([Config.magic0, Config.magic1] ++ lb ++ bytesBE16 lc ++ p ++ bytesBE16 pc)] }

/-- R60, R61, R63, R64: where each byte of the frame stands and what it holds, big-endian. -/
def Obligations.FrameFieldsStandInTheirPlaces : Prop :=
  ∀ (c : Bool) (p : List Byte) (s : State), p.length < 2 ^ 32 →
    ∃ f, exec (.encode c p) s = .next { s with events := s.events ++ [.frame f] } ∧
      f.length = 10 + p.length ∧
      f[0]? = some Config.magic0 ∧ f[1]? = some Config.magic1 ∧
      f[2]? = some (BitVec.ofNat 8 (p.length / 2 ^ 24)) ∧ f[3]? = some (BitVec.ofNat 8 (p.length / 2 ^ 16)) ∧
      f[4]? = some (BitVec.ofNat 8 (p.length / 2 ^ 8)) ∧ f[5]? = some (BitVec.ofNat 8 p.length) ∧
      (let lc := Config.checksum16 ((f.drop 2).take 4)
       f[6]? = some (BitVec.ofNat 8 (lc.toNat / 2 ^ 8)) ∧ f[7]? = some (BitVec.ofNat 8 lc.toNat) ∧
        (f.drop 8).take p.length = p ∧
        let pc := if c then Config.checksum16 p else ~~~ lc
        f[8 + p.length]? = some (BitVec.ofNat 8 (pc.toNat / 2 ^ 8)) ∧
          f[9 + p.length]? = some (BitVec.ofNat 8 pc.toNat))

/-- R86: a payload longer than the 32-bit operand can count is refused, not truncated. -/
def Obligations.EncodeRefusesAnInexpressiblePayload : Prop :=
  ∀ (c : Bool) (p : List Byte) (s : State), 2 ^ 32 ≤ p.length → exec (.encode c p) s = .refused .payloadTooLong

/-- R89: in light mode the PayloadCheck depends only on the payload's length: two payloads of equal length get identical header and
trailer bytes. -/
def Obligations.LightModeFramesDifferOnlyInPayload : Prop :=
  ∀ (p q : List Byte) (s : State), p.length = q.length → p.length < 2 ^ 32 →
    ∃ header trailer, header.length = 8 ∧
      trailer = bytesBE16 (~~~ Config.checksum16 (bytesBE32 (BitVec.ofNat 32 p.length))) ∧
      exec (.encode false p) s = .next { s with events := s.events ++ [.frame (header ++ p ++ trailer)] } ∧
      exec (.encode false q) s = .next { s with events := s.events ++ [.frame (header ++ q ++ trailer)] }

/-! ## Parse steps -/

/-- R111 to R113: SEEKING_HEADER drops what stands before the first Magic; with no Magic it keeps only a lone trailing M0. -/
def Obligations.SeekStepFindsTheFirstMagic : Prop :=
  ∀ s : State, s.headerFound = false →
    (∀ i, MagicAt Config.params s.buf i → (∀ j < i, ¬ MagicAt Config.params s.buf j) →
      parseStep Config.params s
        = .again { s with buf := s.buf.drop i, headerFound := true, pendingLength := 0 }) ∧
    ((∀ i, ¬ MagicAt Config.params s.buf i) →
      parseStep Config.params s
        = .wait { s with buf := if s.buf.getLast? = some Config.magic0 then [Config.magic0] else [] })

/-- R114 to R119, R124: HAVE_HEADER waits for 8 bytes, then makes its checks in order; a failed one drops one byte. -/
def Obligations.HeaderStepChecksInOrder : Prop :=
  ∀ s : State, s.headerFound = true → s.pendingLength = 0 →
    (s.buf.length < 8 → parseStep Config.params s = .wait s) ∧
    ∀ (f0 f1 l3 l2 l1 l0 c1 c0 : Byte) (rest : List Byte),
      s.buf = f0 :: f1 :: l3 :: l2 :: l1 :: l0 :: c1 :: c0 :: rest →
      let L := l3.toNat * 2 ^ 24 + l2.toNat * 2 ^ 16 + l1.toNat * 2 ^ 8 + l0.toNat
      let rejected (c : DiagCode) : State := { s with
        buf := s.buf.drop 1, headerFound := false, pendingLength := 0
        events := s.events ++ if Config.diagPresent then [.diag c] else [] }
      parseStep Config.params s = .again
        (if L = 0 then rejected .lenZero
         else if s.maxBufferSize.toNat < L + Config.fixedHeaderSize.bytes then rejected .lenTooBig
         else if Config.checksum16 [l3, l2, l1, l0] ≠ c1 ++ c0 then rejected .lenCheck
         else { s with pendingLength := BitVec.ofNat 32 L })

/-- R115, R120 to R123: HAVE_LENGTH waits for the whole frame; then it emits the payload and drops the frame, or drops one byte. -/
def Obligations.PayloadStepEmitsOrResyncs : Prop :=
  ∀ s : State, s.headerFound = true → s.pendingLength ≠ 0 →
    (s.buf.length < 10 + s.pendingLength.toNat → parseStep Config.params s = .wait s) ∧
    ∀ (front payload rest : List Byte) (c1 c0 p1 p0 : Byte),
      front.length = 6 → payload.length = s.pendingLength.toNat →
      s.buf = front ++ c1 :: c0 :: (payload ++ p1 :: p0 :: rest) →
      parseStep Config.params s = .again
        (if (if s.useChecksum then Config.checksum16 payload else ~~~ (c1 ++ c0)) = p1 ++ p0 then
          { s with
            buf := rest, headerFound := false, pendingLength := 0, events := s.events ++ [.payload payload] }
        else
          { s with
            buf := s.buf.drop 1, headerFound := false, pendingLength := 0
            events := s.events ++ if Config.diagPresent then [.diag .payCheck] else [] })

/-- The two invariants of R29 that hold at every point: each parse step keeps them. -/
def Obligations.ParseStepsKeepTheLoopInvariant : Prop :=
  ∀ s t : State, LoopInvariant Config.params s →
    (parseStep Config.params s = .again t ∨ parseStep Config.params s = .wait t) → LoopInvariant Config.params t

/-! ## FEED -/

/-- A FEED that fits appends its chunk and makes parse steps until one waits, at most 3 * (|buf| + 1) of them before it, |buf|
taken just after the append (R95, R97; the bound is R98's, which the spec marks as derived). -/
def Obligations.FeedParsesUntilItWaits : Prop :=
  ∀ (chunk : List Byte) (s : State), Fits Config.params s chunk.length →
    ∃ k t, k ≤ 3 * ((s.buf ++ chunk).length + 1) ∧ ParseRun Config.params k { s with buf := s.buf ++ chunk } t ∧
      exec (.feed chunk) s = .next t

/-- R96: with a ceiling within the capacity (R138), a projected size above the ceiling, and no other, makes the full reset happen, in any state; the chunk is discarded too, or
appended to the empty buffer and parsed where the policy keeps it and it fits alone. After every append the buffer is within the
ceiling. -/
def Obligations.OverflowGuardResetsTheDeframer : Prop :=
  ∀ (chunk : List Byte) (s : State), s.maxBufferSize.toNat ≤ Config.bufCapacityPred.val + 1 →
    let cleared : State := { s with
      buf := [], headerFound := false, pendingLength := 0
      events := s.events ++ if Config.diagPresent then [.diag .overflow] else [] }
    if s.maxBufferSize.toNat < s.buf.length + chunk.length then
      if Config.overflowPolicy = .dropChunk ∨ s.maxBufferSize.toNat < chunk.length then
        exec (.feed chunk) s = .next cleared
      else
        chunk.length ≤ s.maxBufferSize.toNat ∧
          ∃ k t, ParseRun Config.params k { cleared with buf := chunk } t ∧ exec (.feed chunk) s = .next t
    else
      (s.buf ++ chunk).length ≤ s.maxBufferSize.toNat ∧
        ∃ k t, ParseRun Config.params k { s with buf := s.buf ++ chunk } t ∧ exec (.feed chunk) s = .next t

/-- Where the ceiling is above the capacity, which only the reset ceiling can be, the guard compares with the capacity, for every value of
the parameters: the model's choice (log entry 2), by which the buffer never holds more than R41 allows. -/
def Obligations.CapacityGuardsWhereTheCeilingIsAboveIt : Prop :=
  ∀ (P : Params) (chunk : List Byte) (s : State), P.bufCapacity < s.maxBufferSize.toNat →
    let cleared : State := { s with
      buf := [], headerFound := false, pendingLength := 0
      events := s.events ++ if P.diagPresent then [.diag .overflow] else [] }
    if P.bufCapacity < s.buf.length + chunk.length then
      if P.overflowPolicy = .dropChunk ∨ P.bufCapacity < chunk.length then transition P (.feed chunk) s = .next cleared
      else ∃ k t, ParseRun P k { cleared with buf := chunk } t ∧ transition P (.feed chunk) s = .next t
    else ∃ k t, ParseRun P k { s with buf := s.buf ++ chunk } t ∧ transition P (.feed chunk) s = .next t

/-- FEED never fails, and leaves at most `maxBufferSize` and at most `BUF_CAPACITY` bytes in the buffer, whatever was there before (R41,
R95, R96; that it holds for a ceiling above the capacity is the model's choice, log entry 2). -/
def Obligations.FeedCompletesWithinTheCeiling : Prop :=
  ∀ (chunk : List Byte) (s : State),
    ∃ t, exec (.feed chunk) s = .next t ∧ t.buf.length ≤ t.maxBufferSize.toNat ∧ t.buf.length ≤ Config.bufCapacityPred.val + 1

/-- What FEED leaves unchanged: the configuration, the unread command bytes, `RST`, the events already delivered; it emits no
`Frame` (R95). -/
def Obligations.FeedFrameIsUnchanged : Prop :=
  ∀ (chunk : List Byte) (s t : State), exec (.feed chunk) s = .next t →
    t.useChecksum = s.useChecksum ∧ t.maxBufferSize = s.maxBufferSize ∧ t.cmdIn = s.cmdIn ∧ t.rst = s.rst ∧
      s.events <+: t.events ∧ framesOf t.events = framesOf s.events

/-- An empty FEED on a quiescent state changes nothing, or performs the full reset where the buffer is above the ceiling, which
happens only with a retained M0 and a ceiling of 0 (R101, which the spec marks as derived). -/
def Obligations.EmptyFeedIsIdle : Prop :=
  ∀ s : State, Quiescent Config.params s →
    if s.buf.length ≤ s.ceiling Config.params then exec (.feed []) s = .next s
    else s.buf = [Config.magic0] ∧ s.maxBufferSize = 0 ∧ s.headerFound = false ∧
      exec (.feed []) s = .next { s with
        buf := [], events := s.events ++ if Config.diagPresent then [.diag .overflow] else [] }

/-- In HAVE_LENGTH a FEED that fits and does not complete the frame only appends: nothing is searched, nothing is emitted. With a
ceiling below 10 + L every FEED that fits is such a one (R120, R125, R127). -/
def Obligations.IncompleteFrameOnlyAccumulates : Prop :=
  ∀ (P : Params) (chunk : List Byte) (s : State), s.headerFound = true → s.pendingLength ≠ 0 → Fits P s chunk.length →
    (s.buf.length + chunk.length < 10 + s.pendingLength.toNat ∨ s.ceiling P < 10 + s.pendingLength.toNat) →
    transition P (.feed chunk) s = .next { s with buf := s.buf ++ chunk }

/-- With a ceiling below 11 no FEED emits a payload, from any state. For a `maxBufferSize` below 11 that is R28's, which the spec marks
as derived; for a capacity below 11 under a larger `maxBufferSize` it rests on the model's choice (log entry 2). -/
def Obligations.CeilingBelowElevenEmitsNothing : Prop :=
  ∀ (chunk : List Byte) (s : State), s.ceiling Config.params < 11 →
    ∃ t, exec (.feed chunk) s = .next t ∧ payloadsOf t.events = payloadsOf s.events

/-- An acceptable frame fed alone to an empty deframer in SEEKING_HEADER that can hold it is emitted, and nothing else (R65). -/
def Obligations.AcceptableFrameIsEmitted : Prop :=
  ∀ (P : Params) (f p : List Byte) (s : State), s.headerFound = false → s.buf = [] → f.length ≤ s.ceiling P →
    AcceptableFrame P s.useChecksum s.maxBufferSize f p →
    transition P (.feed f) s = .next { s with pendingLength := 0, events := s.events ++ [.payload p] }

/-- Garbage before a frame is discarded without an event, if no Magic begins inside it (R66, R77, R112). -/
def Obligations.GarbageBeforeAFrameIsDiscarded : Prop :=
  ∀ (P : Params) (garbage f p : List Byte) (s : State), s.headerFound = false → s.buf = [] →
    (garbage ++ f).length ≤ s.ceiling P →
    AcceptableFrame P s.useChecksum s.maxBufferSize f p →
    (∀ i < garbage.length, ¬ MagicAt P (garbage ++ f) i) →
    transition P (.feed (garbage ++ f)) s = .next { s with pendingLength := 0, events := s.events ++ [.payload p] }

/-- Round trip: what ENCODE frames, FEED emits, however the frame is cut into FEEDs (R91, which the spec marks as derived). -/
def Obligations.RoundTripInAnyPartition : Prop :=
  ∀ (P : Params) (p f : List Byte) (chunks : List (List Byte)) (s : State),
    1 ≤ p.length → p.length + 10 ≤ s.ceiling P → s.headerFound = false → s.buf = [] →
    transition P (.encode s.useChecksum p) s = .next { s with events := s.events ++ [.frame f] } →
    chunks.flatten = f →
    execAll P (chunks.map .feed) s = .next { s with pendingLength := 0, events := s.events ++ [.payload p] }

/-- Chunk-size independence: from a quiescent state, two partitions of one stream into FEEDs leave the same state and the same events,
if no FEED of either overflows; one of the two may be the whole stream in a single FEED (R103, which the spec marks as derived). The
equality of all event channels is stronger than R103, which speaks of payloads. -/
def Obligations.ChunkSizeIndependence : Prop :=
  ∀ (P : Params) (xs ys : List (List Byte)) (s : State), Quiescent P s → xs.flatten = ys.flatten →
    NoOverflow P xs s → NoOverflow P ys s →
    ∃ t, execAll P (xs.map .feed) s = .next t ∧ execAll P (ys.map .feed) s = .next t

/-- Pipelining: two frames in one FEED give both payloads, in order (R104, which the spec marks as derived). -/
def Obligations.PipelinedFramesBothEmit : Prop :=
  ∀ (P : Params) (p q f g : List Byte) (s : State), 1 ≤ p.length → 1 ≤ q.length →
    p.length + q.length + 20 ≤ s.ceiling P → s.headerFound = false → s.buf = [] →
    transition P (.encode s.useChecksum p) s = .next { s with events := s.events ++ [.frame f] } →
    transition P (.encode s.useChecksum q) s = .next { s with events := s.events ++ [.frame g] } →
    transition P (.feed (f ++ g)) s
      = .next { s with pendingLength := 0, events := s.events ++ [.payload p, .payload q] }

/-- Soundness and order of emissions: from a quiescent state, the payloads a FEED that fits emits are those of acceptable frames that
stand in the stream one behind the other, without overlap (R65, R99, which the spec marks as derived). -/
def Obligations.EmittedPayloadsAreFramesOfTheStream : Prop :=
  ∀ (P : Params) (chunk : List Byte) (s : State), Quiescent P s → Fits P s chunk.length →
    ∃ t emitted, transition P (.feed chunk) s = .next t ∧ t.events = s.events ++ emitted ∧
      FramesInStream P s.useChecksum s.maxBufferSize (s.buf ++ chunk) 0 (payloadsOf emitted)

/-- In light mode any payload bytes in a frame built for their length are accepted: corruption is not detected (R67, R129). -/
def Obligations.LightModeAcceptsAnyPayload : Prop :=
  ∀ (P : Params) (p q header trailer : List Byte) (s : State), s.useChecksum = false → s.headerFound = false → s.buf = [] →
    1 ≤ p.length → p.length = q.length → p.length + 10 ≤ s.ceiling P → header.length = 8 →
    transition P (.encode false p) s = .next { s with events := s.events ++ [.frame (header ++ p ++ trailer)] } →
    transition P (.feed (header ++ q ++ trailer)) s
      = .next { s with pendingLength := 0, events := s.events ++ [.payload q] }

/-- The frame of the empty payload is rejected with `LEN_ZERO` first, and nothing is emitted (R87). -/
def Obligations.EmptyPayloadFrameIsRejected : Prop :=
  ∀ (P : Params) (c : Bool) (f : List Byte) (s : State), s.headerFound = false → s.buf = [] → 10 ≤ s.ceiling P →
    transition P (.encode c []) s = .next { s with events := s.events ++ [.frame f] } →
    ∃ t codes, transition P (.feed f) s = .next t ∧ payloadsOf t.events = payloadsOf s.events ∧
      diagsOf t.events = diagsOf s.events ++ (if P.diagPresent then .lenZero :: codes else [])

/-- A chunk larger than the ceiling is lost under either policy, with the full reset, and the next frame that fits is found. For a chunk
larger than `maxBufferSize` that is R102's, which the spec marks as derived; for one larger than the capacity only it rests on the
model's choice (log entry 2). -/
def Obligations.FrameAfterAnOversizedChunkIsFound : Prop :=
  ∀ (P : Params) (chunk p f : List Byte) (s : State), s.ceiling P < chunk.length → 1 ≤ p.length →
    p.length + 10 ≤ s.ceiling P →
    transition P (.encode s.useChecksum p) s = .next { s with events := s.events ++ [.frame f] } →
    execAll P [.feed chunk, .feed f] s = .next { s with
      buf := [], headerFound := false, pendingLength := 0
      events := s.events ++ (if P.diagPresent then [.diag .overflow] else []) ++ [.payload p] }

/-- R154: whether the diagnostic channel exists, and which `Diag` events it has delivered, changes no state, no `Payload` and no
`Frame` event of any command, and not whether a command is refused. -/
def Obligations.DiagnosticsNeverAffectTheRest : Prop :=
  ∀ (P : Params) (present : Bool) (i : Instr) (s t : State), SameButDiags s t →
    let Q := { P with diagPresent := present }
    (∀ s', transition P i s = .next s' → ∃ t', transition Q i t = .next t' ∧ SameButDiags s' t') ∧
      ∀ r, transition P i s = .refused r → transition Q i t = .refused r

/-! ## Control commands -/

/-- R135: CLEAR empties the DecoderState, keeps the configuration and emits nothing. -/
def Obligations.ClearEmptiesTheDecoder : Prop :=
  ∀ s : State, exec .clear s = .next { s with buf := [], headerFound := false, pendingLength := 0 }

/-- R136 to R138: CONFIG sets both fields, or is rejected mid-frame or where the ceiling is above the capacity. -/
def Obligations.ConfigSetsTheConfigurationOrIsRejected : Prop :=
  ∀ (c : Bool) (m : Word) (s : State),
    let rejected : State := { s with events := s.events ++ if Config.diagPresent then [.diag .cfgRejected] else [] }
    exec (.config c m) s = .next
      (if s.headerFound then rejected
       else if Config.bufCapacityPred.val + 1 < m.toNat then rejected
       else { s with useChecksum := c, maxBufferSize := m })

/-- R140: each reserved opcode's command changes no state and emits `Diag(ILLEGAL_CMD)`. -/
def Obligations.IllegalCommandsOnlyReport : Prop :=
  ∀ s : State,
    let reported : Host.Outcome State Fault Refusal :=
      .next { s with events := s.events ++ if Config.diagPresent then [.diag .illegalCmd] else [] }
    exec .illegal00 s = reported ∧ exec .illegal05 s = reported ∧
      (∀ b, exec (.illegal06 b) s = reported) ∧ (∀ b, exec (.illegal08 b) s = reported) ∧
      (∀ b, exec (.illegal10 b) s = reported) ∧ (∀ b, exec (.illegal20 b) s = reported) ∧
      (∀ b, exec (.illegal40 b) s = reported) ∧ (∀ b, exec (.illegal80 b) s = reported)

/-- R26: a step writes the configuration only by `RST` or by a CONFIG between sessions. -/
def Obligations.OnlyConfigAndResetWriteTheConfiguration : Prop :=
  ∀ s t : State, step s = .next t → (t.useChecksum ≠ s.useChecksum ∨ t.maxBufferSize ≠ s.maxBufferSize) →
    s.rst ≠ none ∨
      s.headerFound = false ∧ ∃ rest, decode s.cmdIn = .command (.config t.useChecksum t.maxBufferSize) rest

/-- R22: of all commands only FEED and CLEAR write the DecoderState. -/
def Obligations.OnlyFeedAndClearWriteTheDecoder : Prop :=
  ∀ (i : Instr) (s t : State), exec i s = .next t →
    (t.buf ≠ s.buf ∨ t.headerFound ≠ s.headerFound ∨ t.pendingLength ≠ s.pendingLength) →
    i = .clear ∨ ∃ chunk, i = .feed chunk

/-- No command raises the ceiling above the physical capacity (R41, R138). -/
def Obligations.CommandsKeepTheCeilingWithinCapacity : Prop :=
  ∀ (i : Instr) (s t : State), exec i s = .next t →
    s.maxBufferSize.toNat ≤ Config.bufCapacityPred.val + 1 → t.maxBufferSize.toNat ≤ Config.bufCapacityPred.val + 1

/-- No step leaves more than `BUF_CAPACITY` bytes in the buffer (R20, R41; where the ceiling is above the capacity that is the model's
choice, log entry 2). -/
def Obligations.StepsKeepTheBufferWithinCapacity : Prop :=
  ∀ s t : State, s.buf.length ≤ Config.bufCapacityPred.val + 1 → step s = .next t →
    t.buf.length ≤ Config.bufCapacityPred.val + 1

/-- Each command only adds to the event log, and leaves the command bytes behind it and `RST` alone; only FEED emits a `Payload` and
only ENCODE a `Frame` (R47, R53, R57). -/
def Obligations.CommandsOnlyAddTheirOwnEvents : Prop :=
  ∀ (P : Params) (i : Instr) (s t : State), transition P i s = .next t →
    t.cmdIn = s.cmdIn ∧ t.rst = s.rst ∧ s.events <+: t.events ∧
      (payloadsOf t.events ≠ payloadsOf s.events → ∃ chunk, i = .feed chunk) ∧
      (framesOf t.events ≠ framesOf s.events → ∃ c p, i = .encode c p)

/-- INIT from any state, mid-frame too, leaves an empty deframer in the new configuration, if the capacity allows it (R80, R180). -/
def Obligations.InitConfiguresFromAnyState : Prop :=
  ∀ (P : Params) (c : Bool) (m : Word) (s : State),
    ∃ commands, Pseudo.expand P (.init c m) = some commands ∧
      execAll P commands s = .next
        (if m.toNat ≤ P.bufCapacity then
          { s with buf := [], headerFound := false, pendingLength := 0, useChecksum := c, maxBufferSize := m }
        else
          { s with
            buf := [], headerFound := false, pendingLength := 0
            events := s.events ++ if P.diagPresent then [.diag .cfgRejected] else [] })

/-! ## The machine -/

/-- Every command's meaning is the block's transition at the open parameters (R6, R16). -/
def Obligations.ExecIsTheTransitionOfItsParameters : Prop :=
  ∀ (i : Instr) (s : State), exec i s = transition Config.params i s

/-- With no `RST` asserted, when the bytes at the head of `CMD_IN` decode to a command, the step is that command executed with its
bytes taken (R5, R50). -/
def Obligations.StepRunsTheDecodedCommand : Prop :=
  ∀ (s : State) (i : Instr) (rest : List Byte), s.rst = none → decode s.cmdIn = .command i rest →
    step s = exec i { s with cmdIn := rest }

/-- While no whole command has arrived the block holds its whole state (R166, R184; that a short command waits in place is the
model's form of the stuck state of U11, log entry 3). -/
def Obligations.StepWaitsForAWholeCommand : Prop :=
  ∀ (s : State) (why : DecodeReject), s.rst = none → decode s.cmdIn = .rejected why → step s = .next s

/-- R34: the values of every field after hardware reset, and after CLEAR or the overflow full reset, which keep the configuration. -/
def Obligations.ResetValuesOfEveryField : Prop :=
  let empty (t : State) : Prop := t.buf = [] ∧ t.headerFound = false ∧ t.pendingLength = 0 ∧ t.phase = .seekingHeader
  let atReset (t : State) : Prop := empty t ∧ t.useChecksum = true ∧ t.maxBufferSize = 1048576
  let kept (s t : State) : Prop := empty t ∧ t.useChecksum = s.useChecksum ∧ t.maxBufferSize = s.maxBufferSize
  atReset State.reset ∧
    ∀ s : State, atReset s.hardReset ∧ (∃ t, exec .clear s = .next t ∧ kept s t) ∧ kept s (s.overflowReset Config.params)

/-- R57, R175: an asserted `RST` puts the five fields in their reset values at once. Of a command in progress each channel keeps what
it has delivered, the rest is never produced, and the command's bytes are discarded; a short command's too. That bytes no command in
progress has claimed stay on `CMD_IN` is the model's choice (log entry 4). -/
def Obligations.ResetAbortsTheCommandInProgress : Prop :=
  ∀ (s : State) (r : ResetInput), s.rst = some r →
    ∃ t, step s = .next t ∧ t.buf = [] ∧ t.headerFound = false ∧ t.pendingLength = 0 ∧ t.useChecksum = true ∧
      t.maxBufferSize = 1048576 ∧ t.rst = none ∧
      (r = .betweenCommands → t.cmdIn = s.cmdIn ∧ t.events = s.events) ∧
      ∀ p f d, r = .duringCommand p f d →
        (∀ why, decode s.cmdIn = .rejected why → t.cmdIn = [] ∧ t.events = s.events) ∧
        ∀ i rest u emitted, decode s.cmdIn = .command i rest → exec i { s with cmdIn := rest } = .next u →
          u.events = s.events ++ emitted →
          t.cmdIn = rest ∧ s.events <+: t.events ∧
            payloadsOf t.events = payloadsOf s.events ++ (payloadsOf emitted).take p ∧
            framesOf t.events = framesOf s.events ++ (framesOf emitted).take f ∧
            diagsOf t.events = diagsOf s.events ++ (diagsOf emitted).take d

/-- The quiescent invariant holds after hardware reset (R29, R34). -/
def Obligations.ResetIsQuiescent : Prop := Quiescent Config.params State.reset

/-- The quiescent invariant is kept by every step from every state that has it, `RST` included. Its three phases are R29's, which the
spec marks as derived; that a buffer with a header found is within `maxBufferSize` comes from R41 and R96, and that it is within the
capacity too, where `maxBufferSize` is above it, rests on the model's choice (log entry 2). -/
def Obligations.StepsKeepTheQuiescentInvariant : Prop :=
  ∀ s t : State, Quiescent Config.params s → step s = .next t → Quiescent Config.params t

/-- R151: the codes on `DIAG_OUT`. -/
def Obligations.DiagnosticCodes : Prop :=
  DiagCode.overflow.code = 0x01 ∧ DiagCode.lenZero.code = 0x02 ∧ DiagCode.lenTooBig.code = 0x03 ∧
    DiagCode.lenCheck.code = 0x04 ∧ DiagCode.payCheck.code = 0x05 ∧ DiagCode.illegalCmd.code = 0x10 ∧
    DiagCode.cfgRejected.code = 0x11
end

