-- ==== Sys2Proof/Laws/Operands.lean ====
section
/-! SUPPORT. The small lemmas of slices and big-endian fields. -/

namespace Sys2Proof.Machine

theorem beNat_two (a b : Byte) : beNat [a, b] = a.toNat * 256 + b.toNat := by simp [beNat]

theorem beNat_four (a b c d : Byte) :
    beNat [a, b, c, d] = a.toNat * 2 ^ 24 + b.toNat * 2 ^ 16 + c.toNat * 2 ^ 8 + d.toNat := by
  simp [beNat]; omega

theorem beNat_snoc (s : List Byte) (b : Byte) : beNat (s ++ [b]) = beNat s * 256 + b.toNat := by
  simp [beNat]

/-- A sequence of n bytes stands for a number below 256^n. -/
theorem beNat_lt (s : List Byte) : beNat s < 256 ^ s.length := by
  induction s using List.reverseRecOn with
  | nil => simp [beNat]
  | append_singleton s b ih =>
    rw [beNat_snoc]
    have := b.isLt
    simp only [List.length_append, List.length_singleton, pow_succ]
    omega

@[simp] theorem bytesBE32_length (v : Word) : (bytesBE32 v).length = 4 := rfl

@[simp] theorem bytesBE16_length (v : Check) : (bytesBE16 v).length = 2 := rfl

/-- `BE32` undoes `bytesBE32` (R10). -/
@[simp] theorem beNat_bytesBE32 (v : Word) : beNat (bytesBE32 v) = v.toNat := by
  have := v.isLt
  simp only [bytesBE32, beNat_four, BitVec.extractLsb'_toNat, Nat.shiftRight_eq_div_pow]
  omega

/-- `BE16` undoes `bytesBE16` (R10). -/
@[simp] theorem be16_bytesBE16 (v : Check) : be16 (bytesBE16 v) = v := by
  have := v.isLt
  apply BitVec.eq_of_toNat_eq
  simp only [be16, bytesBE16, beNat_two, BitVec.extractLsb'_toNat, Nat.shiftRight_eq_div_pow, BitVec.toNat_ofNat]
  omega

@[simp] theorem flagOf_flagByte (c : Bool) : flagOf (flagByte c) = c := by cases c <;> decide

theorem slice_length (s : List Byte) (i n : Nat) (h : i + n ≤ s.length) : (slice s i n).length = n := by
  simp only [slice, List.length_take, List.length_drop]; omega

/-- A slice that lies inside s does not see what is appended to s. -/
theorem slice_append_of_le (s t : List Byte) {i n : Nat} (h : i + n ≤ s.length) : slice (s ++ t) i n = slice s i n := by
  rw [slice, slice, List.drop_append_of_le_length (by omega), List.take_append_of_le_length (by simp; omega)]

/-- A slice of a slice is a slice. -/
theorem slice_slice (s : List Byte) {i n j m : Nat} (h : j + m ≤ n) : slice (slice s i n) j m = slice s (i + j) m := by
  simp only [slice, List.drop_take, List.drop_drop, List.take_take]
  congr 1; omega

theorem slice_drop (s : List Byte) (k i n : Nat) : slice (s.drop k) i n = slice s (k + i) n := by
  simp [slice, List.drop_drop]

/-- The slice that starts behind s is the slice of what is appended to s. -/
theorem slice_append_right (s t : List Byte) (i n : Nat) : slice (s ++ t) (s.length + i) n = slice t i n := by
  simp [slice, ← List.drop_drop]

end Sys2Proof.Machine
end

