-- ==== Sys2Proof/Laws/Decode.lean ====
section
/-! SUPPORT. The small lemmas of the decoder and the encoder. -/

namespace Sys2Proof

open Sys2Proof.Machine

theorem takeData_append (mk : List Byte → Instr) (data rest : List Byte) :
    takeData mk data.length (data ++ rest) = .command (mk data) rest := by
  simp [takeData]

/-- A length operand is four bytes that say the length (R70, R73). -/
theorem lengthBytes_spec {data : List Byte} (h : data.length < 2 ^ 32) :
    ∃ n3 n2 n1 n0, lengthBytes data = [n3, n2, n1, n0] ∧ beNat [n3, n2, n1, n0] = data.length := by
  refine ⟨_, _, _, _, rfl, ?_⟩
  have := beNat_bytesBE32 (BitVec.ofNat 32 data.length)
  rwa [BitVec.toNat_ofNat, Nat.mod_eq_of_lt h] at this

/-- The opcodes R75 reserves. -/
abbrev Reserved (op : Byte) : Prop := op = 0x00 ∨ 5 ≤ op.toNat

theorem reserved_iff (op : Byte) : Reserved op ↔ op ≠ 0x01 ∧ op ≠ 0x02 ∧ op ≠ 0x03 ∧ op ≠ 0x04 := by
  constructor
  · rintro (rfl | h)
    · decide
    · refine ⟨?_, ?_, ?_, ?_⟩ <;> rintro rfl <;> simp at h
  · rintro ⟨h1, h2, h3, h4⟩
    by_contra hn
    obtain ⟨h0, h5⟩ := not_or.1 hn
    have : op.toNat = 0 ∨ op.toNat = 1 ∨ op.toNat = 2 ∨ op.toNat = 3 ∨ op.toNat = 4 := by omega
    rcases this with h | h | h | h | h
    · exact h0 (BitVec.eq_of_toNat_eq h)
    · exact h1 (BitVec.eq_of_toNat_eq h)
    · exact h2 (BitVec.eq_of_toNat_eq h)
    · exact h3 (BitVec.eq_of_toNat_eq h)
    · exact h4 (BitVec.eq_of_toNat_eq h)

theorem decode_reserved {op : Byte} (h : Reserved op) (rest : List Byte) :
    decode (op :: rest) = .command (decodeReserved op) rest := by
  obtain ⟨h1, h2, h3, h4⟩ := (reserved_iff op).1 h
  simp only [decode, if_neg h1, if_neg h2, if_neg h3, if_neg h4]

/-- i is the command of the reserved opcode op, in both directions. -/
structure ReservedRow (i : Instr) (op : Byte) : Prop where
  encoded : encode i = [op]
  reserved : Reserved op
  decoded : decodeReserved op = i

theorem reservedRow_00 : ReservedRow .illegal00 0x00 := ⟨rfl, by decide, by decide⟩
theorem reservedRow_05 : ReservedRow .illegal05 0x05 := ⟨rfl, by decide, by decide⟩
theorem reservedRow_06 (b : BitVec 1) : ReservedRow (.illegal06 b) (0b0000011#7 ++ b) :=
  ⟨rfl, by revert b; decide, by revert b; decide⟩
theorem reservedRow_08 (b : BitVec 3) : ReservedRow (.illegal08 b) (0b00001#5 ++ b) :=
  ⟨rfl, by revert b; decide, by revert b; decide⟩
theorem reservedRow_10 (b : BitVec 4) : ReservedRow (.illegal10 b) (0b0001#4 ++ b) :=
  ⟨rfl, by revert b; decide, by revert b; decide⟩
theorem reservedRow_20 (b : BitVec 5) : ReservedRow (.illegal20 b) (0b001#3 ++ b) :=
  ⟨rfl, by revert b; decide, by revert b; decide⟩
theorem reservedRow_40 (b : BitVec 6) : ReservedRow (.illegal40 b) (0b01#2 ++ b) :=
  ⟨rfl, by revert b; decide, by revert b; decide⟩
theorem reservedRow_80 (b : BitVec 7) : ReservedRow (.illegal80 b) (0b1#1 ++ b) :=
  ⟨rfl, by revert b; decide, by revert b; decide⟩

/-! What the mask of a table row fixes, and the bits it leaves free, are the whole byte. -/

theorem row80 : ∀ op : Byte, op &&& 0x80 = 0x80 → 0b1#1 ++ op.extractLsb' 0 7 = op := by decide
theorem row40 : ∀ op : Byte, op &&& 0xC0 = 0x40 → 0b01#2 ++ op.extractLsb' 0 6 = op := by decide
theorem row20 : ∀ op : Byte, op &&& 0xE0 = 0x20 → 0b001#3 ++ op.extractLsb' 0 5 = op := by decide
theorem row10 : ∀ op : Byte, op &&& 0xF0 = 0x10 → 0b0001#4 ++ op.extractLsb' 0 4 = op := by decide
theorem row08 : ∀ op : Byte, op &&& 0xF8 = 0x08 → 0b00001#5 ++ op.extractLsb' 0 3 = op := by decide
theorem row06 : ∀ op : Byte, op &&& 0xFE = 0x06 → 0b0000011#7 ++ op.extractLsb' 0 1 = op := by decide

/-- Byte op is in some row of the opcode table (R78). -/
abbrev InSomeRow (op : Byte) : Prop :=
  op &&& 0x80 = 0x80 ∨ op &&& 0xC0 = 0x40 ∨ op &&& 0xE0 = 0x20 ∨ op &&& 0xF0 = 0x10 ∨ op &&& 0xF8 = 0x08 ∨
    op &&& 0xFE = 0x06 ∨ op = 0x05 ∨ op = 0x04 ∨ op = 0x03 ∨ op = 0x02 ∨ op = 0x01 ∨ op = 0x00

theorem inSomeRow_nibbles : ∀ hi lo : BitVec 4, InSomeRow (hi ++ lo) := by decide

theorem nibbles : ∀ op : Byte, op.extractLsb' 4 4 ++ op.extractLsb' 0 4 = op := by decide

/-- The rows of the opcode table cover every byte (R78). -/
theorem inSomeRow (op : Byte) : InSomeRow op :=
  nibbles op ▸ inSomeRow_nibbles (op.extractLsb' 4 4) (op.extractLsb' 0 4)

/-- Every reserved opcode is the encoding of the command it decodes to. -/
theorem encode_decodeReserved {op : Byte} (h : Reserved op) : encode (decodeReserved op) = [op] := by
  unfold decodeReserved
  split_ifs with h1 h2 h3 h4 h5 h6 h7
  · exact congrArg (· :: []) (row80 op h1)
  · exact congrArg (· :: []) (row40 op h2)
  · exact congrArg (· :: []) (row20 op h3)
  · exact congrArg (· :: []) (row10 op h4)
  · exact congrArg (· :: []) (row08 op h5)
  · exact congrArg (· :: []) (row06 op h6)
  · rw [h7]; rfl
  · obtain ⟨n1, n2, n3, n4⟩ := (reserved_iff op).1 h
    have h0 : op = 0x00 := by simpa only [h1, h2, h3, h4, h5, h6, h7, n1, n2, n3, n4, InSomeRow, false_or] using inSomeRow op
    rw [h0]; rfl

theorem wellFormed_decodeReserved (op : Byte) : (decodeReserved op).wellFormed = true := by
  unfold decodeReserved; split_ifs <;> rfl

/-! ## What a decoded byte string looks like -/

/-- `bytesBE32` undoes `BE32` (R10). -/
theorem bytesBE32_beNat (a b c d : Byte) : bytesBE32 (BitVec.ofNat 32 (beNat [a, b, c, d])) = [a, b, c, d] := by
  have := a.isLt; have := b.isLt; have := c.isLt; have := d.isLt
  simp only [bytesBE32, beNat_four, List.cons.injEq, and_true]
  generalize ha : a.toNat = na at *
  generalize hb : b.toNat = nb at *
  generalize hc : c.toNat = nc at *
  generalize hd : d.toNat = nd at *
  have hlt : na * 2 ^ 24 + nb * 2 ^ 16 + nc * 2 ^ 8 + nd < 2 ^ 32 := by norm_num at *; omega
  refine ⟨?_, ?_, ?_, ?_⟩ <;> apply BitVec.eq_of_toNat_eq <;>
    rw [BitVec.extractLsb'_toNat, BitVec.toNat_ofNat, Nat.mod_eq_of_lt hlt, Nat.shiftRight_eq_div_pow] <;>
    norm_num at * <;> omega

theorem lengthBytes_eq {data : List Byte} {n3 n2 n1 n0 : Byte} (h : data.length = beNat [n3, n2, n1, n0]) :
    lengthBytes data = [n3, n2, n1, n0] := by rw [lengthBytes, h, bytesBE32_beNat]

theorem takeData_inv {mk : List Byte → Instr} {n : Nat} {bytes rest : List Byte} {i : Instr}
    (h : takeData mk n bytes = .command i rest) :
    ∃ data, data.length = n ∧ bytes = data ++ rest ∧ i = mk data := by
  unfold takeData at h
  split at h
  · cases h
  · cases h; exact ⟨bytes.take n, by simp; omega, by simp, rfl⟩

theorem takeData_rejected_iff (mk : List Byte → Instr) (n : Nat) (bytes : List Byte) :
    (∃ why, takeData mk n bytes = .rejected why) ↔ bytes.length < n := by
  unfold takeData; split <;> simp_all

/-- Every way a byte string can decode to a command (R70 to R76). -/
inductive DecodedAs : List Byte → Instr → List Byte → Prop where
  | feed (n3 n2 n1 n0 : Byte) (data rest : List Byte) (length : data.length = beNat [n3, n2, n1, n0]) :
      DecodedAs (0x01 :: n3 :: n2 :: n1 :: n0 :: (data ++ rest)) (.feed data) rest
  | clear (rest : List Byte) : DecodedAs (0x02 :: rest) .clear rest
  | config (flags m3 m2 m1 m0 : Byte) (rest : List Byte) :
      DecodedAs (0x03 :: flags :: m3 :: m2 :: m1 :: m0 :: rest)
        (.config (flagOf flags) (BitVec.ofNat 32 (beNat [m3, m2, m1, m0]))) rest
  | encode (flags n3 n2 n1 n0 : Byte) (data rest : List Byte) (length : data.length = beNat [n3, n2, n1, n0]) :
      DecodedAs (0x04 :: flags :: n3 :: n2 :: n1 :: n0 :: (data ++ rest)) (.encode (flagOf flags) data) rest
  | reserved (op : Byte) (rest : List Byte) (reserved : Reserved op) : DecodedAs (op :: rest) (decodeReserved op) rest

theorem decode_inv {bytes rest : List Byte} {i : Instr} (h : decode bytes = .command i rest) :
    DecodedAs bytes i rest := by
  unfold decode at h
  split at h
  · cases h
  · split_ifs at h with h1 h2 h3 h4
    · subst h1
      unfold decodeFeed at h
      split at h
      · obtain ⟨d, hl, rfl, rfl⟩ := takeData_inv h
        exact .feed _ _ _ _ _ _ hl
      · cases h
    · subst h2; cases h; exact .clear _
    · subst h3
      unfold decodeConfig at h
      split at h
      · cases h; exact .config _ _ _ _ _ _
      · cases h
    · subst h4
      unfold decodeEncode at h
      split at h
      · obtain ⟨d, hl, rfl, rfl⟩ := takeData_inv h
        exact .encode _ _ _ _ _ _ _ hl
      · cases h
    · cases h; exact .reserved _ _ ((reserved_iff _).2 ⟨h1, h2, h3, h4⟩)

theorem flagByte_flagOf : ∀ flags : Byte, flagByte (flagOf flags) = flags &&& 0x01 := by decide

theorem flagOf_and_one : ∀ flags : Byte, flagOf (flags &&& 0x01) = flagOf flags := by decide

end Sys2Proof
end

