-- ==== Sys2Proof/Laws/State.lean ====
section
/-! SUPPORT. What each operation does to each field of the state, one lemma per field. -/

namespace Sys2Proof.Machine

variable (s : State)

@[simp] theorem State.bufAppend_buf (b : List Byte) : (s.bufAppend b).buf = s.buf ++ b := rfl
@[simp] theorem State.bufAppend_headerFound (b : List Byte) : (s.bufAppend b).headerFound = s.headerFound := rfl
@[simp] theorem State.bufAppend_pendingLength (b : List Byte) : (s.bufAppend b).pendingLength = s.pendingLength := rfl
@[simp] theorem State.bufAppend_useChecksum (b : List Byte) : (s.bufAppend b).useChecksum = s.useChecksum := rfl
@[simp] theorem State.bufAppend_maxBufferSize (b : List Byte) : (s.bufAppend b).maxBufferSize = s.maxBufferSize := rfl
@[simp] theorem State.bufAppend_cmdIn (b : List Byte) : (s.bufAppend b).cmdIn = s.cmdIn := rfl
@[simp] theorem State.bufAppend_rst (b : List Byte) : (s.bufAppend b).rst = s.rst := rfl
@[simp] theorem State.bufAppend_events (b : List Byte) : (s.bufAppend b).events = s.events := rfl

@[simp] theorem State.bufDrop_buf (k : Nat) : (s.bufDrop k).buf = s.buf.drop k := rfl
@[simp] theorem State.bufDrop_headerFound (k : Nat) : (s.bufDrop k).headerFound = s.headerFound := rfl
@[simp] theorem State.bufDrop_pendingLength (k : Nat) : (s.bufDrop k).pendingLength = s.pendingLength := rfl
@[simp] theorem State.bufDrop_useChecksum (k : Nat) : (s.bufDrop k).useChecksum = s.useChecksum := rfl
@[simp] theorem State.bufDrop_maxBufferSize (k : Nat) : (s.bufDrop k).maxBufferSize = s.maxBufferSize := rfl
@[simp] theorem State.bufDrop_cmdIn (k : Nat) : (s.bufDrop k).cmdIn = s.cmdIn := rfl
@[simp] theorem State.bufDrop_rst (k : Nat) : (s.bufDrop k).rst = s.rst := rfl
@[simp] theorem State.bufDrop_events (k : Nat) : (s.bufDrop k).events = s.events := rfl

@[simp] theorem State.bufClear_buf : s.bufClear.buf = [] := rfl
@[simp] theorem State.bufClear_headerFound : s.bufClear.headerFound = s.headerFound := rfl
@[simp] theorem State.bufClear_pendingLength : s.bufClear.pendingLength = s.pendingLength := rfl
@[simp] theorem State.bufClear_useChecksum : s.bufClear.useChecksum = s.useChecksum := rfl
@[simp] theorem State.bufClear_maxBufferSize : s.bufClear.maxBufferSize = s.maxBufferSize := rfl
@[simp] theorem State.bufClear_cmdIn : s.bufClear.cmdIn = s.cmdIn := rfl
@[simp] theorem State.bufClear_rst : s.bufClear.rst = s.rst := rfl
@[simp] theorem State.bufClear_events : s.bufClear.events = s.events := rfl

@[simp] theorem State.emit_buf (e : Event) : (s.emit e).buf = s.buf := rfl
@[simp] theorem State.emit_headerFound (e : Event) : (s.emit e).headerFound = s.headerFound := rfl
@[simp] theorem State.emit_pendingLength (e : Event) : (s.emit e).pendingLength = s.pendingLength := rfl
@[simp] theorem State.emit_useChecksum (e : Event) : (s.emit e).useChecksum = s.useChecksum := rfl
@[simp] theorem State.emit_maxBufferSize (e : Event) : (s.emit e).maxBufferSize = s.maxBufferSize := rfl
@[simp] theorem State.emit_cmdIn (e : Event) : (s.emit e).cmdIn = s.cmdIn := rfl
@[simp] theorem State.emit_rst (e : Event) : (s.emit e).rst = s.rst := rfl
@[simp] theorem State.emit_events (e : Event) : (s.emit e).events = s.events ++ [e] := rfl

@[simp] theorem State.diag_buf (P : Params) (c : DiagCode) : (s.diag P c).buf = s.buf := rfl
@[simp] theorem State.diag_headerFound (P : Params) (c : DiagCode) : (s.diag P c).headerFound = s.headerFound := rfl
@[simp] theorem State.diag_pendingLength (P : Params) (c : DiagCode) : (s.diag P c).pendingLength = s.pendingLength := rfl
@[simp] theorem State.diag_useChecksum (P : Params) (c : DiagCode) : (s.diag P c).useChecksum = s.useChecksum := rfl
@[simp] theorem State.diag_maxBufferSize (P : Params) (c : DiagCode) : (s.diag P c).maxBufferSize = s.maxBufferSize := rfl
@[simp] theorem State.diag_cmdIn (P : Params) (c : DiagCode) : (s.diag P c).cmdIn = s.cmdIn := rfl
@[simp] theorem State.diag_rst (P : Params) (c : DiagCode) : (s.diag P c).rst = s.rst := rfl
@[simp] theorem State.diag_events (P : Params) (c : DiagCode) : (s.diag P c).events = s.events ++ diagEvents P c := rfl

@[simp] theorem State.toSeeking_buf : s.toSeeking.buf = s.buf := rfl
@[simp] theorem State.toSeeking_headerFound : s.toSeeking.headerFound = false := rfl
@[simp] theorem State.toSeeking_pendingLength : s.toSeeking.pendingLength = 0 := rfl
@[simp] theorem State.toSeeking_useChecksum : s.toSeeking.useChecksum = s.useChecksum := rfl
@[simp] theorem State.toSeeking_maxBufferSize : s.toSeeking.maxBufferSize = s.maxBufferSize := rfl
@[simp] theorem State.toSeeking_cmdIn : s.toSeeking.cmdIn = s.cmdIn := rfl
@[simp] theorem State.toSeeking_rst : s.toSeeking.rst = s.rst := rfl
@[simp] theorem State.toSeeking_events : s.toSeeking.events = s.events := rfl

@[simp] theorem State.clearDecoder_buf : s.clearDecoder.buf = [] := rfl
@[simp] theorem State.clearDecoder_headerFound : s.clearDecoder.headerFound = false := rfl
@[simp] theorem State.clearDecoder_pendingLength : s.clearDecoder.pendingLength = 0 := rfl
@[simp] theorem State.clearDecoder_useChecksum : s.clearDecoder.useChecksum = s.useChecksum := rfl
@[simp] theorem State.clearDecoder_maxBufferSize : s.clearDecoder.maxBufferSize = s.maxBufferSize := rfl
@[simp] theorem State.clearDecoder_cmdIn : s.clearDecoder.cmdIn = s.cmdIn := rfl
@[simp] theorem State.clearDecoder_rst : s.clearDecoder.rst = s.rst := rfl
@[simp] theorem State.clearDecoder_events : s.clearDecoder.events = s.events := rfl

@[simp] theorem State.narrowResync_buf : s.narrowResync.buf = s.buf.drop 1 := rfl
@[simp] theorem State.narrowResync_headerFound : s.narrowResync.headerFound = false := rfl
@[simp] theorem State.narrowResync_pendingLength : s.narrowResync.pendingLength = 0 := rfl
@[simp] theorem State.narrowResync_useChecksum : s.narrowResync.useChecksum = s.useChecksum := rfl
@[simp] theorem State.narrowResync_maxBufferSize : s.narrowResync.maxBufferSize = s.maxBufferSize := rfl
@[simp] theorem State.narrowResync_cmdIn : s.narrowResync.cmdIn = s.cmdIn := rfl
@[simp] theorem State.narrowResync_rst : s.narrowResync.rst = s.rst := rfl
@[simp] theorem State.narrowResync_events : s.narrowResync.events = s.events := rfl

@[simp] theorem State.reject_buf (P : Params) (c : DiagCode) : (s.reject P c).buf = s.buf.drop 1 := rfl
@[simp] theorem State.reject_headerFound (P : Params) (c : DiagCode) : (s.reject P c).headerFound = false := rfl
@[simp] theorem State.reject_pendingLength (P : Params) (c : DiagCode) : (s.reject P c).pendingLength = 0 := rfl
@[simp] theorem State.reject_useChecksum (P : Params) (c : DiagCode) : (s.reject P c).useChecksum = s.useChecksum := rfl
@[simp] theorem State.reject_maxBufferSize (P : Params) (c : DiagCode) : (s.reject P c).maxBufferSize = s.maxBufferSize := rfl
@[simp] theorem State.reject_cmdIn (P : Params) (c : DiagCode) : (s.reject P c).cmdIn = s.cmdIn := rfl
@[simp] theorem State.reject_rst (P : Params) (c : DiagCode) : (s.reject P c).rst = s.rst := rfl
@[simp] theorem State.reject_events (P : Params) (c : DiagCode) : (s.reject P c).events = s.events ++ diagEvents P c := rfl

@[simp] theorem State.overflowReset_buf (P : Params) : (s.overflowReset P).buf = [] := rfl
@[simp] theorem State.overflowReset_headerFound (P : Params) : (s.overflowReset P).headerFound = false := rfl
@[simp] theorem State.overflowReset_pendingLength (P : Params) : (s.overflowReset P).pendingLength = 0 := rfl
@[simp] theorem State.overflowReset_useChecksum (P : Params) : (s.overflowReset P).useChecksum = s.useChecksum := rfl
@[simp] theorem State.overflowReset_maxBufferSize (P : Params) : (s.overflowReset P).maxBufferSize = s.maxBufferSize := rfl
@[simp] theorem State.overflowReset_cmdIn (P : Params) : (s.overflowReset P).cmdIn = s.cmdIn := rfl
@[simp] theorem State.overflowReset_rst (P : Params) : (s.overflowReset P).rst = s.rst := rfl
@[simp] theorem State.overflowReset_events (P : Params) : (s.overflowReset P).events = s.events ++ diagEvents P .overflow := rfl

@[simp] theorem State.hardReset_buf : s.hardReset.buf = [] := rfl
@[simp] theorem State.hardReset_headerFound : s.hardReset.headerFound = false := rfl
@[simp] theorem State.hardReset_pendingLength : s.hardReset.pendingLength = 0 := rfl
@[simp] theorem State.hardReset_useChecksum : s.hardReset.useChecksum = useChecksumReset := rfl
@[simp] theorem State.hardReset_maxBufferSize : s.hardReset.maxBufferSize = maxBufferSizeReset := rfl
@[simp] theorem State.hardReset_cmdIn : s.hardReset.cmdIn = s.cmdIn := rfl
@[simp] theorem State.hardReset_rst : s.hardReset.rst = s.rst := rfl
@[simp] theorem State.hardReset_events : s.hardReset.events = s.events := rfl

@[simp] theorem State.acceptFrame_buf (L : Nat) : (s.acceptFrame L).buf = s.buf.drop (10 + L) := rfl
@[simp] theorem State.acceptFrame_headerFound (L : Nat) : (s.acceptFrame L).headerFound = false := rfl
@[simp] theorem State.acceptFrame_pendingLength (L : Nat) : (s.acceptFrame L).pendingLength = 0 := rfl
@[simp] theorem State.acceptFrame_useChecksum (L : Nat) : (s.acceptFrame L).useChecksum = s.useChecksum := rfl
@[simp] theorem State.acceptFrame_maxBufferSize (L : Nat) : (s.acceptFrame L).maxBufferSize = s.maxBufferSize := rfl
@[simp] theorem State.acceptFrame_cmdIn (L : Nat) : (s.acceptFrame L).cmdIn = s.cmdIn := rfl
@[simp] theorem State.acceptFrame_rst (L : Nat) : (s.acceptFrame L).rst = s.rst := rfl
@[simp] theorem State.acceptFrame_events (L : Nat) : (s.acceptFrame L).events = s.events ++ [.payload (s.bufRead 8 L)] := rfl

/-! The ceiling depends on the configuration only. -/

theorem State.ceiling_congr {P : Params} {s t : State} (h : t.maxBufferSize = s.maxBufferSize) : t.ceiling P = s.ceiling P := by
  rw [State.ceiling, State.ceiling, h]

/-- Within the capacity the effective ceiling is `maxBufferSize` (R96, R138). -/
theorem State.ceiling_eq {P : Params} {s : State} (h : s.maxBufferSize.toNat ≤ P.bufCapacity) :
    s.ceiling P = s.maxBufferSize.toNat := min_eq_left h

/-- Above the capacity it is the capacity (R41). -/
theorem State.ceiling_eq_capacity {P : Params} {s : State} (h : P.bufCapacity ≤ s.maxBufferSize.toNat) :
    s.ceiling P = P.bufCapacity := min_eq_right h

theorem State.ceiling_le_max (P : Params) : s.ceiling P ≤ s.maxBufferSize.toNat := min_le_left _ _
theorem State.ceiling_le_capacity (P : Params) : s.ceiling P ≤ P.bufCapacity := min_le_right _ _

@[simp] theorem State.bufAppend_ceiling (P : Params) (b : List Byte) : (s.bufAppend b).ceiling P = s.ceiling P := rfl
@[simp] theorem State.clearDecoder_ceiling (P : Params) : s.clearDecoder.ceiling P = s.ceiling P := rfl
@[simp] theorem State.overflowReset_ceiling (P Q : Params) : (s.overflowReset P).ceiling Q = s.ceiling Q := rfl
@[simp] theorem State.reject_ceiling (P Q : Params) (c : DiagCode) : (s.reject P c).ceiling Q = s.ceiling Q := rfl
@[simp] theorem State.acceptFrame_ceiling (P : Params) (L : Nat) : (s.acceptFrame L).ceiling P = s.ceiling P := rfl

end Sys2Proof.Machine
end

