-- ==== Sys2Proof/Laws/Parse.lean ====
section
/-! SUPPORT. The parse steps and the parse loop: what a step can do, that the loop ends, and how both meet an append. -/

namespace Sys2Proof.Machine

open Sys2Proof.Safety

variable {P : Params} {s t : State}

/-! ## The Magic search -/

/-- `firstMagic` answers the least index at which the Magic stands (R111). -/
theorem firstMagic_eq_some_iff {buf : List Byte} {i : Nat} :
    firstMagic P buf = some i ↔ MagicAt P buf i ∧ ∀ j < i, ¬ MagicAt P buf j := by
  induction buf generalizing i with
  | nil => simp [firstMagic, MagicAt]
  | cons a rest ih =>
    cases rest with
    | nil => simp [firstMagic, MagicAt]
    | cons b rest =>
      by_cases hm : a = P.m0 ∧ b = P.m1
      · obtain ⟨rfl, rfl⟩ := hm
        simp only [firstMagic, and_self, if_true, Option.some.injEq]
        constructor
        · rintro rfl; exact ⟨by simp [MagicAt], by simp⟩
        · rintro ⟨-, h⟩
          by_contra hne
          exact h 0 (by omega) (by simp [MagicAt])
      · have h0 : ¬ MagicAt P (a :: b :: rest) 0 := by simpa [MagicAt] using hm
        simp only [firstMagic, hm, if_false, Option.map_eq_some_iff]
        constructor
        · rintro ⟨j, hj, rfl⟩
          obtain ⟨h1, h2⟩ := ih.1 hj
          refine ⟨by simpa [MagicAt] using h1, fun k hk => ?_⟩
          cases k with
          | zero => exact h0
          | succ k => simpa [MagicAt] using h2 k (by omega)
        · rintro ⟨h1, h2⟩
          cases i with
          | zero => exact absurd h1 h0
          | succ i =>
            refine ⟨i, ih.2 ⟨by simpa [MagicAt] using h1, fun k hk => ?_⟩, rfl⟩
            simpa [MagicAt] using h2 (k + 1) (by omega)

theorem firstMagic_eq_none_iff {buf : List Byte} : firstMagic P buf = none ↔ ∀ i, ¬ MagicAt P buf i := by
  constructor
  · intro h i
    induction i using Nat.strong_induction_on with
    | _ i ih => exact fun hi => by simpa [h] using firstMagic_eq_some_iff.2 ⟨hi, ih⟩
  · intro h
    cases hf : firstMagic P buf with
    | none => rfl
    | some i => exact absurd (firstMagic_eq_some_iff.1 hf).1 (h i)

theorem magicAt_lt {buf : List Byte} {i : Nat} (h : MagicAt P buf i) : i + 1 < buf.length :=
  (List.getElem?_eq_some_iff.1 h.2).1

theorem firstMagic_lt {buf : List Byte} {i : Nat} (h : firstMagic P buf = some i) : i + 1 < buf.length :=
  magicAt_lt (firstMagic_eq_some_iff.1 h).1

/-- What stands at a found Magic. -/
theorem magicAt_take_drop {buf : List Byte} {i : Nat} (h : MagicAt P buf i) : (buf.drop i).take 2 = [P.m0, P.m1] := by
  have hl := magicAt_lt h
  obtain ⟨h0, h1⟩ := h
  obtain ⟨_, h0⟩ := List.getElem?_eq_some_iff.1 h0
  obtain ⟨_, h1⟩ := List.getElem?_eq_some_iff.1 h1
  rw [List.drop_eq_getElem_cons (by omega), List.drop_eq_getElem_cons (by omega), h0, h1]
  simp

theorem firstMagic_append {buf : List Byte} {i : Nat} (h : firstMagic P buf = some i) (b : List Byte) :
    firstMagic P (buf ++ b) = some i := by
  have hlt := firstMagic_lt h
  obtain ⟨h1, h2⟩ := firstMagic_eq_some_iff.1 h
  refine firstMagic_eq_some_iff.2 ⟨?_, fun j hj => ?_⟩
  · simpa [MagicAt, List.getElem?_append_left (show i < buf.length by omega), List.getElem?_append_left hlt] using h1
  · simpa [MagicAt, List.getElem?_append_left (show j < buf.length by omega),
      List.getElem?_append_left (show j + 1 < buf.length by omega)] using h2 j hj

/-- With no Magic in the buffer, searching it with more bytes behind it is searching the bytes it would retain with the same bytes
behind them (R113). -/
theorem firstMagic_append_of_none {buf : List Byte} (h : firstMagic P buf = none) (b : List Byte) :
    firstMagic P (buf ++ b)
      = (firstMagic P (retained P buf ++ b)).map (· + (buf.length - (retained P buf).length)) := by
  induction buf with
  | nil => simp [retained]
  | cons a rest ih =>
    cases rest with
    | nil =>
      by_cases ha : a = P.m0
      · simp [retained, ha]
      · cases b with
        | nil => simp [retained, firstMagic, ha]
        | cons b bs => simp [retained, firstMagic, ha]
    | cons c rest =>
      by_cases hm : a = P.m0 ∧ c = P.m1
      · simp [firstMagic, hm] at h
      · have hr : retained P (a :: c :: rest) = retained P (c :: rest) := by simp [retained]
        have hl : (retained P (c :: rest)).length ≤ (c :: rest).length := by
          unfold retained; split <;> simp
        simp only [firstMagic, hm, if_false, Option.map_eq_none_iff] at h
        simp only [List.cons_append, firstMagic, hm, if_false, hr]
        rw [← List.cons_append, ih h, Option.map_map]
        congr 1
        funext k
        simp only [Function.comp, List.length_cons] at hl ⊢
        omega

theorem retained_length_le (buf : List Byte) : (retained P buf).length ≤ buf.length := by
  unfold retained
  split
  · rename_i h; cases buf <;> simp at h ⊢
  · simp

theorem retained_eq (buf : List Byte) : retained P buf = [] ∨ retained P buf = [P.m0] := by
  unfold retained; split <;> simp

@[simp] theorem firstMagic_retained (buf : List Byte) : firstMagic P (retained P buf) = none := by
  rcases retained_eq (P := P) buf with h | h <;> simp [h, firstMagic]

@[simp] theorem retained_retained (buf : List Byte) : retained P (retained P buf) = retained P buf := by
  rcases retained_eq (P := P) buf with h | h <;> rw [h] <;> simp [retained]

theorem retained_append (buf b : List Byte) : retained P (buf ++ b) = retained P (retained P buf ++ b) := by
  cases b using List.reverseRecOn with
  | nil => simp
  | append_singleton b x => simp [retained, ← List.append_assoc]

/-- The retained bytes stand at the end of the buffer. -/
theorem drop_retained (buf : List Byte) : buf.drop (buf.length - (retained P buf).length) = retained P buf := by
  cases buf using List.reverseRecOn with
  | nil => simp [retained]
  | append_singleton l x =>
    by_cases h : x = P.m0 <;> simp [retained, h]

/-! ## The phases -/

theorem phase_seeking_iff : s.phase = .seekingHeader ↔ s.headerFound = false := by
  unfold State.phase; cases s.headerFound <;> simp; split <;> simp

theorem phase_haveHeader_iff : s.phase = .haveHeader ↔ s.headerFound = true ∧ s.pendingLength = 0 := by
  unfold State.phase; cases s.headerFound <;> simp

theorem phase_haveLength_iff : s.phase = .haveLength ↔ s.headerFound = true ∧ s.pendingLength ≠ 0 := by
  unfold State.phase; cases s.headerFound <;> simp

@[simp] theorem bufAppend_phase (b : List Byte) : (s.bufAppend b).phase = s.phase := rfl

/-! ## What a step can do -/

/-- The Length field of a buffered header (R116). -/
def State.lengthField (s : State) : Nat := beNat (s.bufRead 2 4)

/-- The PayloadCheck comparison of HAVE_LENGTH (R121, R122). -/
def State.payloadMatches (P : Params) (s : State) : Prop :=
  payloadCheck P s.useChecksum (be16 (s.bufRead 6 2)) (s.bufRead 8 s.pendingLength.toNat)
    = be16 (s.bufRead (8 + s.pendingLength.toNat) 2)

/-- Every way a step can end in `continue` (R112, R116 to R119, R122, R123). -/
inductive ContinueStep (P : Params) (s : State) : State → Prop where
  | magicFound (i : Nat) (phase : s.headerFound = false) (found : firstMagic P s.buf = some i) :
      ContinueStep P s { s with buf := s.buf.drop i, headerFound := true, pendingLength := 0 }
  | zeroLength (phase : s.headerFound = true ∧ s.pendingLength = 0) (enough : 8 ≤ s.buf.length)
      (zero : s.lengthField = 0) : ContinueStep P s (s.reject P .lenZero)
  | lengthAboveLimit (phase : s.headerFound = true ∧ s.pendingLength = 0) (enough : 8 ≤ s.buf.length)
      (nonzero : s.lengthField ≠ 0) (above : s.maxBufferSize.toNat < s.lengthField + P.fixedHeaderSize.bytes) :
      ContinueStep P s (s.reject P .lenTooBig)
  | lengthCheckFailed (phase : s.headerFound = true ∧ s.pendingLength = 0) (enough : 8 ≤ s.buf.length)
      (nonzero : s.lengthField ≠ 0) (within : s.lengthField + P.fixedHeaderSize.bytes ≤ s.maxBufferSize.toNat)
      (differs : chk P (s.bufRead 2 4) ≠ be16 (s.bufRead 6 2)) : ContinueStep P s (s.reject P .lenCheck)
  | lengthAccepted (phase : s.headerFound = true ∧ s.pendingLength = 0) (enough : 8 ≤ s.buf.length)
      (nonzero : s.lengthField ≠ 0) (within : s.lengthField + P.fixedHeaderSize.bytes ≤ s.maxBufferSize.toNat)
      (equal : chk P (s.bufRead 2 4) = be16 (s.bufRead 6 2)) :
      ContinueStep P s { s with pendingLength := BitVec.ofNat 32 s.lengthField }
  | payloadAccepted (phase : s.headerFound = true ∧ s.pendingLength ≠ 0)
      (enough : 10 + s.pendingLength.toNat ≤ s.buf.length) (equal : s.payloadMatches P) :
      ContinueStep P s (s.acceptFrame s.pendingLength.toNat)
  | payloadRejected (phase : s.headerFound = true ∧ s.pendingLength ≠ 0)
      (enough : 10 + s.pendingLength.toNat ≤ s.buf.length) (differs : ¬ s.payloadMatches P) :
      ContinueStep P s (s.reject P .payCheck)

/-- Every way a step can end in `wait` (R113, R114, R120). -/
inductive WaitStep (P : Params) (s : State) : State → Prop where
  | noMagic (phase : s.headerFound = false) (none : firstMagic P s.buf = none) :
      WaitStep P s { s with buf := retained P s.buf }
  | shortHeader (phase : s.headerFound = true ∧ s.pendingLength = 0) (short : s.buf.length < 8) : WaitStep P s s
  | shortFrame (phase : s.headerFound = true ∧ s.pendingLength ≠ 0)
      (short : s.buf.length < 10 + s.pendingLength.toNat) : WaitStep P s s

theorem parseStep_again_iff : parseStep P s = .again t ↔ ContinueStep P s t := by
  constructor
  · intro h
    unfold parseStep at h
    split at h
    · rename_i hp
      unfold seekStep at h
      split at h
      · rename_i i hi
        cases h; exact .magicFound i (phase_seeking_iff.1 hp) hi
      · cases h
    · rename_i hp
      have hp := phase_haveHeader_iff.1 hp
      simp only [headerStep] at h
      split_ifs at h with h8 hz hl hc
      · cases h; exact .zeroLength hp (by omega) hz
      · cases h; exact .lengthAboveLimit hp (by omega) hz hl
      · cases h; exact .lengthCheckFailed hp (by omega) hz (by unfold State.lengthField; omega) hc
      · cases h; exact .lengthAccepted hp (by omega) hz (by unfold State.lengthField; omega) (not_not.1 hc)
    · rename_i hp
      have hp := phase_haveLength_iff.1 hp
      simp only [payloadStep] at h
      split_ifs at h with hl hc
      · cases h; exact .payloadAccepted hp (by omega) hc
      · cases h; exact .payloadRejected hp (by omega) hc
  · intro h
    cases h with
    | magicFound i hp hi => simp [parseStep, phase_seeking_iff.2 hp, seekStep, hi, State.bufDrop]
    | zeroLength hp h8 hz => simp [parseStep, phase_haveHeader_iff.2 hp, headerStep, show ¬ s.buf.length < 8 by omega, show beNat (s.bufRead 2 4) = 0 from hz]
    | lengthAboveLimit hp h8 hz hl =>
      unfold State.lengthField at hz hl
      simp [parseStep, phase_haveHeader_iff.2 hp, headerStep, show ¬ s.buf.length < 8 by omega, hz, hl]
    | lengthCheckFailed hp h8 hz hl hc =>
      unfold State.lengthField at hz hl
      simp [parseStep, phase_haveHeader_iff.2 hp, headerStep, show ¬ s.buf.length < 8 by omega, hz, Nat.not_lt.2 hl, hc]
    | lengthAccepted hp h8 hz hl hc =>
      unfold State.lengthField at hz hl ⊢
      simp [parseStep, phase_haveHeader_iff.2 hp, headerStep, show ¬ s.buf.length < 8 by omega, hz, Nat.not_lt.2 hl, hc]
    | payloadAccepted hp hl hc =>
      unfold State.payloadMatches at hc
      simp [parseStep, phase_haveLength_iff.2 hp, payloadStep, Nat.not_lt.2 hl, hc]
    | payloadRejected hp hl hc =>
      unfold State.payloadMatches at hc
      simp [parseStep, phase_haveLength_iff.2 hp, payloadStep, Nat.not_lt.2 hl, hc]

theorem parseStep_wait_iff : parseStep P s = .wait t ↔ WaitStep P s t := by
  constructor
  · intro h
    unfold parseStep at h
    split at h
    · rename_i hp
      unfold seekStep at h
      split at h
      · cases h
      · rename_i hi
        cases h; exact .noMagic (phase_seeking_iff.1 hp) hi
    · rename_i hp
      simp only [headerStep] at h
      split_ifs at h with h8
      cases h; exact .shortHeader (phase_haveHeader_iff.1 hp) h8
    · rename_i hp
      simp only [payloadStep] at h
      split_ifs at h with hl
      cases h; exact .shortFrame (phase_haveLength_iff.1 hp) hl
  · intro h
    cases h with
    | noMagic hp hn => simp [parseStep, phase_seeking_iff.2 hp, seekStep, hn]
    | shortHeader hp h8 => simp [parseStep, phase_haveHeader_iff.2 hp, headerStep, h8]
    | shortFrame hp hl => simp [parseStep, phase_haveLength_iff.2 hp, payloadStep, hl]

/-! ## The loop ends -/

/-- The measure of R98: 3 for each buffered byte, and the rank of the phase. -/
def State.measure (s : State) : Nat :=
  3 * s.buf.length + (if s.headerFound then (if s.pendingLength = 0 then 1 else 0) else 2)

theorem ContinueStep.measure_lt (h : ContinueStep P s t) : t.measure < s.measure := by
  cases h with
  | magicFound i hp hi =>
    have := firstMagic_lt hi
    simp only [State.measure, List.length_drop, hp, if_true, Bool.false_eq_true, if_false]; omega
  | zeroLength hp h8 => simp only [State.measure, State.reject_buf, State.reject_headerFound, List.length_drop, hp]; simp; omega
  | lengthAboveLimit hp h8 => simp only [State.measure, State.reject_buf, State.reject_headerFound, List.length_drop, hp]; simp; omega
  | lengthCheckFailed hp h8 => simp only [State.measure, State.reject_buf, State.reject_headerFound, List.length_drop, hp]; simp; omega
  | lengthAccepted hp h8 hz =>
    have hlt : s.lengthField < 2 ^ 32 := by
      have := beNat_lt (s.bufRead 2 4)
      rw [show (s.bufRead 2 4).length = 4 from slice_length _ _ _ (by omega)] at this
      simpa [State.lengthField] using this
    have hne : BitVec.ofNat 32 s.lengthField ≠ 0 := fun h0 => hz (by
      have h0 := congrArg BitVec.toNat h0
      rwa [BitVec.toNat_ofNat, Nat.mod_eq_of_lt hlt] at h0)
    simp only [State.measure, hp, if_true, if_neg hne]; omega
  | payloadAccepted hp hl => simp only [State.measure, State.acceptFrame_buf, State.acceptFrame_headerFound, List.length_drop, hp]; simp; omega
  | payloadRejected hp hl => simp only [State.measure, State.reject_buf, State.reject_headerFound, List.length_drop, hp]; simp; omega

/-- From every state the parse loop makes at most `measure` steps that continue, and then one that waits (R98). -/
theorem exists_parseRun (P : Params) (s : State) : ∃ k ≤ s.measure, ∃ t, ParseRun P k s t := by
  generalize hm : s.measure = m
  induction m using Nat.strong_induction_on generalizing s with
  | _ m ih =>
    cases h : parseStep P s with
    | wait t => exact ⟨0, by omega, t, .wait h⟩
    | again u =>
      have hlt := (parseStep_again_iff.1 h).measure_lt
      obtain ⟨k, hk, t, hr⟩ := ih u.measure (by omega) u rfl
      exact ⟨k + 1, by omega, t, .again h hr⟩

theorem parseLoop_of_run {k fuel : Nat} (h : ParseRun P k s t) (hf : k < fuel) : parseLoop P fuel s = t := by
  induction h generalizing fuel with
  | wait h => obtain ⟨n, rfl⟩ := Nat.exists_eq_succ_of_ne_zero (show fuel ≠ 0 by omega); simp [parseLoop, h]
  | again h _ ih =>
    obtain ⟨n, rfl⟩ := Nat.exists_eq_succ_of_ne_zero (show fuel ≠ 0 by omega)
    simpa [parseLoop, h] using ih (by omega)

theorem measure_le : s.measure ≤ 3 * (s.buf.length + 1) := by
  unfold State.measure; split_ifs <;> omega

/-- The parse loop as R97 and R98 have it: at most 3 * (|buf| + 1) steps that continue, then one that waits. -/
theorem parse_run (P : Params) (s : State) : ∃ k ≤ 3 * (s.buf.length + 1), ParseRun P k s (parse P s) := by
  obtain ⟨k, hk, t, hr⟩ := exists_parseRun P s
  have hle := measure_le (s := s)
  refine ⟨k, by omega, ?_⟩
  rwa [parse, parseLoop_of_run hr (by omega)]

theorem parse_of_run {k : Nat} (h : ParseRun P k s t) : parse P s = t := by
  obtain ⟨j, -, hr⟩ := parse_run P s
  generalize parse P s = u at hr
  induction h generalizing j with
  | wait h =>
    cases hr with
    | wait h' => rw [h] at h'; exact (Progress.wait.inj h').symm
    | again h' _ => rw [h] at h'; cases h'
  | again h _ ih =>
    cases hr with
    | wait h' => rw [h] at h'; cases h'
    | again h' hr => rw [h] at h'; cases h'; exact ih _ hr

theorem parse_of_wait (h : parseStep P s = .wait t) : parse P s = t := parse_of_run (.wait h)

theorem parse_of_again (h : parseStep P s = .again t) : parse P s = parse P t := by
  obtain ⟨k, -, hr⟩ := parse_run P t
  exact parse_of_run (.again h hr)

/-- Induction along the parse loop: a relation that a `wait` step establishes and a `continue` step passes on holds between a state
and what the loop makes of it. -/
theorem parse_induct {C : State → State → Prop}
    (wait : ∀ {s t}, WaitStep P s t → C s t)
    (again : ∀ {s u t}, ContinueStep P s u → C u t → C s t) (s : State) : C s (parse P s) := by
  obtain ⟨k, -, hr⟩ := parse_run P s
  generalize parse P s = t at hr
  induction hr with
  | wait h => exact wait (parseStep_wait_iff.1 h)
  | again h _ ih => exact again (parseStep_again_iff.1 h) ih

/-! ## Steps and appended bytes -/

theorem bufRead_append {i n : Nat} (h : i + n ≤ s.buf.length) (b : List Byte) :
    (s.bufAppend b).bufRead i n = s.bufRead i n := slice_append_of_le _ _ h

/-- A step that continues does the same with more bytes behind the buffer (R103). -/
theorem ContinueStep.bufAppend (h : ContinueStep P s t) (b : List Byte) :
    ContinueStep P (s.bufAppend b) (t.bufAppend b) := by
  have rej : ∀ c, 1 ≤ s.buf.length → (s.reject P c).bufAppend b = (s.bufAppend b).reject P c := fun c hl => by
    simp [State.reject, State.narrowResync, State.bufAppend, State.bufDrop, State.diag, State.toSeeking,
      List.drop_append_of_le_length hl]
  have field : 8 ≤ s.buf.length → (s.bufAppend b).lengthField = s.lengthField := fun h8 => by
    simp only [State.lengthField, bufRead_append (show 2 + 4 ≤ s.buf.length by omega)]
  cases h with
  | magicFound i hp hi =>
    have := firstMagic_lt hi
    have h' := ContinueStep.magicFound (P := P) (s := s.bufAppend b) i hp (firstMagic_append hi b)
    simpa [State.bufAppend, List.drop_append_of_le_length (show i ≤ s.buf.length by omega)] using h'
  | zeroLength hp h8 hz =>
    rw [rej _ (by omega)]
    exact .zeroLength hp (by simp; omega) (by rw [field h8]; exact hz)
  | lengthAboveLimit hp h8 hz hl =>
    rw [rej _ (by omega)]
    exact .lengthAboveLimit hp (by simp; omega) (by rw [field h8]; exact hz) (by rw [field h8]; exact hl)
  | lengthCheckFailed hp h8 hz hl hc =>
    rw [rej _ (by omega)]
    refine .lengthCheckFailed hp (by simp; omega) (by rw [field h8]; exact hz) (by rw [field h8]; exact hl) ?_
    rwa [bufRead_append (by omega), bufRead_append (by omega)]
  | lengthAccepted hp h8 hz hl hc =>
    have h' := ContinueStep.lengthAccepted (P := P) (s := s.bufAppend b) hp (by simp; omega)
      (by rw [field h8]; exact hz) (by rw [field h8]; exact hl)
      (by rwa [bufRead_append (by omega), bufRead_append (by omega)])
    rwa [field h8] at h'
  | payloadAccepted hp hl hc =>
    have h' := ContinueStep.payloadAccepted (P := P) (s := s.bufAppend b) hp (by simp; omega) (by
      simpa only [State.payloadMatches, State.bufAppend_pendingLength, State.bufAppend_useChecksum,
        bufRead_append (show 6 + 2 ≤ s.buf.length by omega),
        bufRead_append (show 8 + s.pendingLength.toNat ≤ s.buf.length by omega),
        bufRead_append (show 8 + s.pendingLength.toNat + 2 ≤ s.buf.length by omega)] using hc)
    convert h' using 1
    simp only [State.acceptFrame, State.bufAppend_pendingLength,
      bufRead_append (show 8 + s.pendingLength.toNat ≤ s.buf.length by omega)]
    simp [State.bufAppend, State.bufDrop, State.emit, State.toSeeking, List.drop_append_of_le_length hl]
  | payloadRejected hp hl hc =>
    rw [rej _ (by omega)]
    refine .payloadRejected hp (by simp; omega) ?_
    simpa only [State.payloadMatches, State.bufAppend_pendingLength, State.bufAppend_useChecksum,
        bufRead_append (show 6 + 2 ≤ s.buf.length by omega),
        bufRead_append (show 8 + s.pendingLength.toNat ≤ s.buf.length by omega),
        bufRead_append (show 8 + s.pendingLength.toNat + 2 ≤ s.buf.length by omega)] using hc

/-- The bytes a `wait` step leaves decide the same as the bytes it found, with more bytes behind them (R103). -/
theorem WaitStep.parse_bufAppend (h : WaitStep P s t) (b : List Byte) :
    parse P (s.bufAppend b) = parse P (t.bufAppend b) := by
  cases h with
  | shortHeader => rfl
  | shortFrame => rfl
  | noMagic hp hn =>
    have key := firstMagic_append_of_none hn b
    cases hf : firstMagic P (retained P s.buf ++ b) with
    | none =>
      rw [hf, Option.map_none] at key
      rw [parse_of_wait (parseStep_wait_iff.2 (.noMagic (s := s.bufAppend b) hp key)),
        parse_of_wait (parseStep_wait_iff.2 (.noMagic (s := State.bufAppend { s with buf := retained P s.buf } b) hp hf))]
      simp [State.bufAppend, retained_append s.buf b]
    | some i =>
      rw [hf, Option.map_some] at key
      rw [parse_of_again (parseStep_again_iff.2 (.magicFound (s := s.bufAppend b) _ hp key)),
        parse_of_again (parseStep_again_iff.2 (.magicFound (s := State.bufAppend { s with buf := retained P s.buf } b) i hp hf))]
      have hle := retained_length_le (P := P) s.buf
      have : (s.buf ++ b).drop (i + (s.buf.length - (retained P s.buf).length)) = (retained P s.buf ++ b).drop i := by
        rw [Nat.add_comm, ← List.drop_drop, List.drop_append_of_le_length (by omega), drop_retained]
      simp [State.bufAppend, this]

/-- Parsing, appending and parsing again is appending and parsing (R103). -/
theorem parse_bufAppend (P : Params) (s : State) (b : List Byte) :
    parse P (s.bufAppend b) = parse P ((parse P s).bufAppend b) :=
  parse_induct (C := fun s t => parse P (s.bufAppend b) = parse P (t.bufAppend b))
    (fun h => h.parse_bufAppend b)
    (fun h ih => (parse_of_again (parseStep_again_iff.2 (h.bufAppend b))).trans ih) s

end Sys2Proof.Machine
end

