-- ==== Sys2Proof/Laws/Feed.lean ====
section
/-! SUPPORT. What FEED does in each branch of the overflow guard, and what the parse loop and FEED leave alone. -/

namespace Sys2Proof.Machine

open Sys2Proof.Safety

variable {P : Params} {s t : State} {chunk : List Byte}

/-! ## The branches of the guard -/

theorem feed_of_fits (h : Fits P s chunk.length) : feed P chunk s = parse P (s.bufAppend chunk) :=
  if_neg (Nat.not_lt.2 h)

theorem feed_of_drop (h : ¬ Fits P s chunk.length) (hd : s.DropsChunk P chunk.length) :
    feed P chunk s = s.overflowReset P :=
  (if_pos (Nat.not_le.1 h)).trans (if_pos hd)

theorem feed_of_keep (h : ¬ Fits P s chunk.length) (hd : ¬ s.DropsChunk P chunk.length) :
    feed P chunk s = parse P ((s.overflowReset P).bufAppend chunk) :=
  (if_pos (Nat.not_le.1 h)).trans (if_neg hd)

/-- Every way a FEED can end: the chunk is parsed behind the buffer, or the full reset happens and the chunk is dropped, or it is
parsed alone (R95, R96). -/
theorem feed_cases (P : Params) (chunk : List Byte) (s : State) :
    (Fits P s chunk.length ∧ feed P chunk s = parse P (s.bufAppend chunk)) ∨
      (¬ Fits P s chunk.length ∧ feed P chunk s = s.overflowReset P) ∨
      (¬ Fits P s chunk.length ∧ chunk.length ≤ s.ceiling P ∧
        feed P chunk s = parse P ((s.overflowReset P).bufAppend chunk)) := by
  by_cases h : Fits P s chunk.length
  · exact .inl ⟨h, feed_of_fits h⟩
  by_cases hd : s.DropsChunk P chunk.length
  · exact .inr (.inl ⟨h, feed_of_drop h hd⟩)
  · exact .inr (.inr ⟨h, Nat.not_lt.1 (not_or.1 hd).2, feed_of_keep h hd⟩)

/-! ## Events -/

@[simp] theorem payloadsOf_append (a b : List Event) : payloadsOf (a ++ b) = payloadsOf a ++ payloadsOf b := by
  simp [payloadsOf]

@[simp] theorem framesOf_append (a b : List Event) : framesOf (a ++ b) = framesOf a ++ framesOf b := by simp [framesOf]

@[simp] theorem diagsOf_append (a b : List Event) : diagsOf (a ++ b) = diagsOf a ++ diagsOf b := by simp [diagsOf]

@[simp] theorem payloadsOf_diagEvents (P : Params) (c : DiagCode) : payloadsOf (diagEvents P c) = [] := by
  unfold diagEvents; split <;> rfl

@[simp] theorem framesOf_diagEvents (P : Params) (c : DiagCode) : framesOf (diagEvents P c) = [] := by
  unfold diagEvents; split <;> rfl

/-- What each channel keeps of an aborted command's events (R57). -/
theorem deliverUpTo_channels (p f d : Nat) (es : List Event) :
    payloadsOf (deliverUpTo p f d es) = (payloadsOf es).take p ∧
      framesOf (deliverUpTo p f d es) = (framesOf es).take f ∧
      diagsOf (deliverUpTo p f d es) = (diagsOf es).take d := by
  induction es generalizing p f d with
  | nil => simp [deliverUpTo, payloadsOf, framesOf, diagsOf]
  | cons e es ih =>
    cases e with
    | payload b =>
      cases p with
      | zero => simpa [deliverUpTo, payloadsOf, framesOf, diagsOf] using ih 0 f d
      | succ p => simpa [deliverUpTo, payloadsOf, framesOf, diagsOf] using ih p f d
    | frame b =>
      cases f with
      | zero => simpa [deliverUpTo, payloadsOf, framesOf, diagsOf] using ih p 0 d
      | succ f => simpa [deliverUpTo, payloadsOf, framesOf, diagsOf] using ih p f d
    | diag c =>
      cases d with
      | zero => simpa [deliverUpTo, payloadsOf, framesOf, diagsOf] using ih p f 0
      | succ d => simpa [deliverUpTo, payloadsOf, framesOf, diagsOf] using ih p f d

/-! ## What the parse loop leaves alone -/

/-- What no parse step changes: the configuration, the command bytes, `RST`, the events already there and the `Frame` channel
(R26, R95). -/
structure ParseFrame (s t : State) : Prop where
  useChecksum : t.useChecksum = s.useChecksum
  maxBufferSize : t.maxBufferSize = s.maxBufferSize
  cmdIn : t.cmdIn = s.cmdIn
  rst : t.rst = s.rst
  events : s.events <+: t.events
  frames : framesOf t.events = framesOf s.events
  shrinks : t.buf.length ≤ s.buf.length

theorem ParseFrame.refl (s : State) : ParseFrame s s := ⟨rfl, rfl, rfl, rfl, List.prefix_refl _, rfl, le_rfl⟩

theorem ParseFrame.trans {u : State} (h : ParseFrame s t) (h' : ParseFrame t u) : ParseFrame s u :=
  ⟨h'.useChecksum.trans h.useChecksum, h'.maxBufferSize.trans h.maxBufferSize, h'.cmdIn.trans h.cmdIn,
    h'.rst.trans h.rst, h.events.trans h'.events, h'.frames.trans h.frames, h'.shrinks.trans h.shrinks⟩

theorem parseFrame_reject (P : Params) (s : State) (c : DiagCode) : ParseFrame s (s.reject P c) :=
  ⟨rfl, rfl, rfl, rfl, List.prefix_append _ _, by simp, by simp⟩

theorem ContinueStep.frame (h : ContinueStep P s t) : ParseFrame s t := by
  cases h with
  | magicFound => exact ⟨rfl, rfl, rfl, rfl, List.prefix_refl _, rfl, by simp⟩
  | lengthAccepted => exact ⟨rfl, rfl, rfl, rfl, List.prefix_refl _, rfl, le_rfl⟩
  | payloadAccepted => exact ⟨rfl, rfl, rfl, rfl, List.prefix_append _ _, by simp [framesOf], by simp⟩
  | zeroLength => exact parseFrame_reject _ _ _
  | lengthAboveLimit => exact parseFrame_reject _ _ _
  | lengthCheckFailed => exact parseFrame_reject _ _ _
  | payloadRejected => exact parseFrame_reject _ _ _

theorem WaitStep.frame (h : WaitStep P s t) : ParseFrame s t := by
  cases h with
  | noMagic => exact ⟨rfl, rfl, rfl, rfl, List.prefix_refl _, rfl, retained_length_le _⟩
  | shortHeader => exact .refl s
  | shortFrame => exact .refl s

theorem parse_frame (P : Params) (s : State) : ParseFrame s (parse P s) :=
  parse_induct (C := ParseFrame) (fun h => h.frame) (fun h ih => h.frame.trans ih) s

end Sys2Proof.Machine
end

