-- ==== Sys2Proof/Laws/PerInstr.lean ====
section
/-! SUPPORT. Statements for all commands, one lemma for each constructor. -/

namespace Sys2Proof.Laws.EncodedLength

open Sys2Proof Sys2Proof.Machine

/-- The first bytes of a well-formed command's encoding give its whole length (R74). -/
def Statement (i : Instr) : Prop := i.wellFormed = true → commandLength (encode i) = some (encode i).length

theorem feed (chunk : List Byte) : Statement (.feed chunk) := fun h => by
  obtain ⟨n3, n2, n1, n0, hb, hn⟩ := lengthBytes_spec (of_decide_eq_true h)
  simp [encode, commandLength, hb, hn]; omega

theorem clear : Statement .clear := fun _ => by decide

theorem config (c : Bool) (m : Word) : Statement (.config c m) := fun _ => rfl

theorem encode (c : Bool) (payload : List Byte) : Statement (.encode c payload) := fun h => by
  obtain ⟨n3, n2, n1, n0, hb, hn⟩ := lengthBytes_spec (of_decide_eq_true h)
  simp [Sys2Proof.encode, commandLength, hb, hn]; omega

/-- The command of a reserved opcode is one byte (R75). -/
theorem of_reservedRow {i : Instr} {op : Byte} (h : ReservedRow i op) : Statement i := fun _ => by
  obtain ⟨h1, _, h3, h4⟩ := (reserved_iff op).1 h.reserved
  simp only [h.encoded, commandLength, if_neg h1, if_neg h3, if_neg h4, List.length_singleton]

theorem illegal00 : Statement .illegal00 := of_reservedRow reservedRow_00
theorem illegal05 : Statement .illegal05 := of_reservedRow reservedRow_05
theorem illegal06 (low : BitVec 1) : Statement (.illegal06 low) := of_reservedRow (reservedRow_06 low)
theorem illegal08 (low : BitVec 3) : Statement (.illegal08 low) := of_reservedRow (reservedRow_08 low)
theorem illegal10 (low : BitVec 4) : Statement (.illegal10 low) := of_reservedRow (reservedRow_10 low)
theorem illegal20 (low : BitVec 5) : Statement (.illegal20 low) := of_reservedRow (reservedRow_20 low)
theorem illegal40 (low : BitVec 6) : Statement (.illegal40 low) := of_reservedRow (reservedRow_40 low)
theorem illegal80 (low : BitVec 7) : Statement (.illegal80 low) := of_reservedRow (reservedRow_80 low)

end Sys2Proof.Laws.EncodedLength
end

