-- ==== Sys2Proof/Machine/Reference.lean ====
section
/-! DEFINITION. The test instance of the parameters: TC16 and the defaults (spec 00_scope R6, R7; 95_test_vectors). It stands here
only so that the spec's vectors can be evaluated: the machine's own parameters are those of Sys2Proof/Config.lean, all open. -/

namespace Sys2Proof.Machine

/-- One bit of TC16 (R7). -/
def tc16Bit (crc : Check) : Check := if crc.getLsbD 15 then (crc <<< 1) ^^^ 0x1021 else crc <<< 1

/-- One byte of TC16 (R7). -/
def tc16Byte (crc : Check) (b : Byte) : Check := Nat.iterate tc16Bit 8 (crc ^^^ (b.setWidth 16 <<< 8))

/-- `TC16`, the test-instance checksum (R7). -/
def tc16 (bytes : List Byte) : Check := bytes.foldl tc16Byte 0xFFFF

/-- The parameter values the spec's test vectors use (R6, 95_test_vectors). -/
def Params.reference : Params where
  m0 := 0x5A
  m1 := 0xA5
  checksum16 := tc16
  fixedHeaderSize := .leadingFields
  overflowPolicy := .dropChunk
  bufCapacityPred := 4294967294
  diagPresent := true

end Sys2Proof.Machine
end

