-- ==== Sys2Proof/Tests/Slice0.lean ====
section
/-! SUPPORT. Tests of the model against words and vectors written in the spec, and a witness for the hypotheses of each statement.

The expected results come from 30_encoding R81 and 95_test_vectors. The vectors hold for the spec's test instance of the parameters,
so they run `feed`, `buildFrame` and `configure` on `Params.reference`. -/

open Sys2Proof Sys2Proof.Machine Sys2Proof.Safety

namespace Sys2Proof.Tests

/-- A state with these five fields, nothing on the channels. -/
def stateOf (buf : List Byte) (headerFound : Bool) (pendingLength : Word) (useChecksum : Bool) (maxBufferSize : Word) : State :=
  { State.reset with buf, headerFound, pendingLength, useChecksum, maxBufferSize }

/-- The reset state with these bytes buffered while the block is searching. -/
def seeking (buf : List Byte) : State := stateOf buf false 0 true 0x00100000

/-- What a vector of 95_test_vectors lists: the end state and the events. -/
structure Observed where
  buf : List Byte
  headerFound : Bool
  pendingLength : Nat
  events : List Event
  deriving DecidableEq, Repr

def observed (s : State) : Observed := ⟨s.buf, s.headerFound, s.pendingLength.toNat, s.events⟩

/-- One FEED on the spec's test instance. -/
def fed (chunk : List Byte) (s : State) : Observed := observed (feed Params.reference chunk s)

/-- The next state an outcome answers. -/
def answer : Host.Outcome State Fault Refusal → Option State
  | .next s => some s
  | .fault _ => none
  | .refused _ => none

/-! ## Which commands are well formed -/

theorem test_wellFormed_feed_too_long : (Instr.feed (List.replicate (2 ^ 32) 0)).wellFormed = false := by
  simp only [Instr.wellFormed, lengthFits, List.length_replicate]; decide

theorem test_wellFormed_encode_too_long : (Instr.encode true (List.replicate (2 ^ 32) 0)).wellFormed = false := by
  simp only [Instr.wellFormed, lengthFits, List.length_replicate]; decide

/-- The longest payload that a 32-bit operand counts. -/
theorem test_wellFormed_encode_longest : (Instr.encode true (List.replicate (2 ^ 32 - 1) 0)).wellFormed = true := by
  simp only [Instr.wellFormed, lengthFits, List.length_replicate]; decide

theorem test_wellFormed_short :
    (Instr.feed [0x5A]).wellFormed = true ∧ (Instr.encode true []).wellFormed = true ∧ Instr.clear.wellFormed = true := by decide

/-! ## Decoding words written out from 30_encoding -/

/-- `FEED {5A A5 00}`, big-endian length (PROG4). -/
theorem test_decode_feed :
    decode [0x01, 0x00, 0x00, 0x00, 0x03, 0x5A, 0xA5, 0x00, 0x02] = .command (.feed [0x5A, 0xA5, 0x00]) [0x02] := by decide

/-- The first length byte is the most significant: 2^24 bytes are still to come (R10). -/
theorem test_decode_feed_short : decode [0x01, 0x01, 0x00, 0x00, 0x00, 0x5A] = .rejected .shortData := by decide

theorem test_decode_clear : decode [0x02, 0x07] = .command .clear [0x07] := by decide

/-- `CONFIG csum=1, max=64` (PROG3). -/
theorem test_decode_config : decode [0x03, 0x01, 0x00, 0x00, 0x00, 0x40] = .command (.config true 64) [] := by decide

/-- V-C4: the reserved bits of the flags byte are ignored. -/
theorem test_decode_config_reserved_bits :
    decode [0x03, 0xFF, 0x00, 0x00, 0x00, 0x40] = .command (.config true 64) [] ∧
      decode [0x03, 0xFE, 0x00, 0x00, 0x00, 0x40] = .command (.config false 64) [] := by decide

/-- `ENCODE csum=1, "hi"` (PROG2, R81). -/
theorem test_decode_encode :
    decode [0x04, 0x01, 0x00, 0x00, 0x00, 0x02, 0x68, 0x69] = .command (.encode true [0x68, 0x69]) [] := by decide

/-- Both ends of each reserved row of the opcode table (R75). -/
theorem test_decode_reserved :
    decode [0x00] = .command .illegal00 [] ∧ decode [0x05] = .command .illegal05 [] ∧
      decode [0x06] = .command (.illegal06 0) [] ∧ decode [0x07] = .command (.illegal06 1) [] ∧
      decode [0x08] = .command (.illegal08 0) [] ∧ decode [0x0F] = .command (.illegal08 7) [] ∧
      decode [0x10] = .command (.illegal10 0) [] ∧ decode [0x1F] = .command (.illegal10 15) [] ∧
      decode [0x20] = .command (.illegal20 0) [] ∧ decode [0x3F] = .command (.illegal20 31) [] ∧
      decode [0x40] = .command (.illegal40 0) [] ∧ decode [0x7F] = .command (.illegal40 63) [] ∧
      decode [0x80] = .command (.illegal80 0) [] ∧ decode [0xFF] = .command (.illegal80 127) [] := by decide

/-- The last lines of PROG4, and two pseudo-commands (R79, R80). -/
theorem test_assemble :
    assemble Params.reference [.command .clear, .command (.config false 64), .rawByte 0x07]
        = some [0x02, 0x03, 0x00, 0x00, 0x00, 0x00, 0x40, 0x07] ∧
      assemble Params.reference [.pseudo (.init true 64)] = some [0x02, 0x03, 0x01, 0x00, 0x00, 0x00, 0x40] ∧
      assemble Params.reference [.pseudo (.feedSplit 1 [0x5A, 0xA5, 0x00])]
        = some [0x01, 0x00, 0x00, 0x00, 0x02, 0x5A, 0xA5, 0x01, 0x00, 0x00, 0x00, 0x01, 0x00] := by decide +kernel

/-- A FEEDFRAME whose payload of 2^32-1 bytes has a frame that no FEED can carry, and an ENCODE line with one byte more (log entry 10). -/
theorem test_assemble_no_encoding (P : Params) :
    Pseudo.expand P (.feedFrame true (List.replicate (2 ^ 32 - 1) 0)) = none ∧
      assemble P [.command (.encode true (List.replicate (2 ^ 32) 0))] = none := by
  constructor
  · simp only [Pseudo.expand, Pseudo.commands, List.all_cons, List.all_nil, Instr.wellFormed, lengthFits, buildFrame,
      List.length_append, List.length_replicate, bytesBE32_length, bytesBE16_length, List.length_cons, List.length_nil]
    exact if_neg (by decide)
  · simp only [assemble, ListingLine.bytes, test_wellFormed_encode_too_long]; rfl

/-- A table row gives byte 0 only; every bit above it is 0. -/
theorem test_decodeTableWord :
    decodeTableWord 8 0x01 = some (.feed []) ∧ decodeTableWord 8 0x02 = some .clear ∧
      decodeTableWord 8 0x03 = some (.config false 0) ∧ decodeTableWord 8 0x04 = some (.encode false []) ∧
      decodeTableWord 8 0x81 = some (.illegal80 1) := by decide +kernel

/-! ## The first step from reset runs the placed command -/

theorem test_step_feed : answer (step (State.reset.withFetchWord 8 0x01)) = some State.reset := by decide +kernel

theorem test_step_clear : step (State.reset.withFetchWord 8 0x02) = .next State.reset := rfl

theorem test_step_config :
    step (State.reset.withFetchWord 8 0x03) = .next { State.reset with useChecksum := false, maxBufferSize := 0 } := rfl

theorem test_step_illegal :
    step (State.reset.withFetchWord 8 0x80) = .next { State.reset with events := diagEvents Config.params .illegalCmd } := rfl

/-- One `Frame` of 10 bytes, for any Magic and any checksum (R87). -/
theorem test_step_encode :
    ((answer (step (State.reset.withFetchWord 8 0x04))).map fun t => (framesOf t.events).map List.length) = some [10] := by
  decide +kernel

/-! ## The vectors of 95_test_vectors -/

/-- The check value of the test checksum (R7), and the checksum of the empty sequence. -/
theorem test_tc16 :
    tc16 [0x31, 0x32, 0x33, 0x34, 0x35, 0x36, 0x37, 0x38, 0x39] = 0x29B1 ∧ tc16 [] = 0xFFFF ∧
      tc16 [0x00, 0x00, 0x00, 0x0B] = 0x35AB ∧ tc16 [0x68, 0x69] = 0x6203 := by decide +kernel

/-- "hello world". -/
def hello : List Byte := [0x68, 0x65, 0x6C, 0x6C, 0x6F, 0x20, 0x77, 0x6F, 0x72, 0x6C, 0x64]

/-- The frame of V-E1, W1. -/
def helloLight : List Byte := [0x5A, 0xA5, 0x00, 0x00, 0x00, 0x0B, 0x35, 0xAB] ++ hello ++ [0xCA, 0x54]

/-- The frame of V-E8. -/
def hiFrame : List Byte := [0x5A, 0xA5, 0x00, 0x00, 0x00, 0x02, 0xA4, 0x82, 0x68, 0x69, 0x62, 0x03]

/-- V-E1, V-E8, V-E3, V-E4, V-E7. -/
theorem test_encode_vectors :
    buildFrame Params.reference false hello = helloLight ∧ buildFrame Params.reference true [0x68, 0x69] = hiFrame ∧
      buildFrame Params.reference false [] = [0x5A, 0xA5, 0x00, 0x00, 0x00, 0x00, 0x84, 0xC0, 0x7B, 0x3F] ∧
      buildFrame Params.reference true [] = [0x5A, 0xA5, 0x00, 0x00, 0x00, 0x00, 0x84, 0xC0, 0xFF, 0xFF] ∧
      buildFrame Params.reference false [0x00] = [0x5A, 0xA5, 0x00, 0x00, 0x00, 0x01, 0x94, 0xE1, 0x00, 0x6B, 0x1E] := by
  decide +kernel

/-- V-S2, V-S3, V-S4 (its second FEED), V-S5, V-S8 (its second FEED). -/
theorem test_feed_search :
    fed [0x11, 0x22, 0x33] (seeking []) = ⟨[], false, 0, []⟩ ∧ fed [0x11, 0x5A] (seeking []) = ⟨[0x5A], false, 0, []⟩ ∧
      fed [0xA5] (seeking [0x5A]) = ⟨[0x5A, 0xA5], true, 0, []⟩ ∧
      fed [0x5A, 0x5A, 0xA5] (seeking []) = ⟨[0x5A, 0xA5], true, 0, []⟩ ∧
      fed [0x5A] (seeking [0x5A]) = ⟨[0x5A], false, 0, []⟩ := by decide +kernel

/-- V-H2 and V-H2b: the length limit and its boundary; V-H3, V-H4, V-H5 (an exact sum), V-H7 (the zero check comes first). -/
theorem test_feed_header :
    fed [0x5A, 0xA5, 0x00, 0x00, 0x00, 0x39, 0x23, 0xBA] (stateOf [] false 0 true 64) = ⟨[], false, 0, [.diag .lenTooBig]⟩ ∧
      fed [0x5A, 0xA5, 0x00, 0x00, 0x00, 0x38, 0x33, 0x9B] (stateOf [] false 0 true 64)
        = ⟨[0x5A, 0xA5, 0x00, 0x00, 0x00, 0x38, 0x33, 0x9B], true, 56, []⟩ ∧
      fed [0x5A, 0xA5, 0x00, 0x00, 0x00, 0x01, 0x94, 0xE0] (seeking []) = ⟨[], false, 0, [.diag .lenCheck]⟩ ∧
      fed [0x5A, 0xA5, 0x00, 0x00, 0x00, 0x01, 0x94] (seeking [])
        = ⟨[0x5A, 0xA5, 0x00, 0x00, 0x00, 0x01, 0x94], true, 0, []⟩ ∧
      fed [0x5A, 0xA5, 0xFF, 0xFF, 0xFF, 0xFF, 0x1D, 0x0F] (seeking []) = ⟨[], false, 0, [.diag .lenTooBig]⟩ ∧
      fed [0x5A, 0xA5, 0x00, 0x00, 0x00, 0x00, 0x00, 0x00] (seeking []) = ⟨[], false, 0, [.diag .lenZero]⟩ := by
  decide +kernel

/-- V-P1 (its last FEED), V-P4, V-P7, V-F1, V-F2. -/
theorem test_feed_payload :
    fed [0x54] (stateOf (helloLight.take 20) true 11 false 0x00100000) = ⟨[], false, 0, [.payload hello]⟩ ∧
      fed (helloLight.set 8 0x69) (stateOf [] false 0 false 0x00100000)
        = ⟨[], false, 0, [.payload (0x69 :: hello.drop 1)]⟩ ∧
      fed (hiFrame.take 11) (seeking []) = ⟨hiFrame.take 11, true, 2, []⟩ ∧
      fed (hiFrame ++ [0x5A, 0xA5, 0x00, 0x00, 0x00, 0x02, 0xA4, 0x82, 0x79, 0x6F, 0x32, 0x87]) (seeking [])
        = ⟨[], false, 0, [.payload [0x68, 0x69], .payload [0x79, 0x6F]]⟩ ∧
      fed ([0x00, 0x5A, 0xA5, 0x00, 0x00, 0x00, 0x05, 0x00, 0x00] ++ hiFrame) (seeking [])
        = ⟨[], false, 0, [.diag .lenCheck, .payload [0x68, 0x69]]⟩ := by decide +kernel

/-- V-P3 and V-P5: a payload, and a mode, that the PayloadCheck does not match. -/
theorem test_feed_payCheck :
    fed (hiFrame.set 8 0x69) (seeking []) = ⟨[], false, 0, [.diag .payCheck]⟩ ∧
      fed hiFrame (stateOf [] false 0 false 0x00100000) = ⟨[], false, 0, [.diag .payCheck]⟩ := by decide +kernel

/-- V-F4a and V-F4b: the overflow boundary; V-F6 and V-F6k: the two policies; V-F9: an empty FEED that overflows. -/
theorem test_feed_overflow :
    fed helloLight (stateOf [] false 0 false 21) = ⟨[], false, 0, [.payload hello]⟩ ∧
      fed helloLight (stateOf [] false 0 false 20) = ⟨[], false, 0, [.diag .overflow]⟩ ∧
      fed (hello ++ [0xEF, 0xEB] ++ hiFrame) (stateOf (helloLight.take 8) true 11 true 30)
        = ⟨[], false, 0, [.diag .overflow]⟩ ∧
      observed (feed { Params.reference with overflowPolicy := .keepChunkIfFits } (hello ++ [0xEF, 0xEB] ++ hiFrame)
          (stateOf (helloLight.take 8) true 11 true 30))
        = ⟨[], false, 0, [.diag .overflow, .payload [0x68, 0x69]]⟩ ∧
      fed [] (stateOf [0x5A] false 0 true 0) = ⟨[], false, 0, [.diag .overflow]⟩ := by decide +kernel

/-- V-C1, V-C5, V-C6. -/
theorem test_config_vectors :
    configure Params.reference false 64 (stateOf [0x5A, 0xA5, 0x00] true 0 true 0x00100000)
        = { stateOf [0x5A, 0xA5, 0x00] true 0 true 0x00100000 with events := [.diag .cfgRejected] } ∧
      configure Params.reference false 64 (seeking [0x5A]) = stateOf [0x5A] false 0 false 64 ∧
      configure { Params.reference with bufCapacityPred := 4095 } true 4097 State.reset
        = { State.reset with events := [.diag .cfgRejected] } := by decide +kernel

/-- V-C2: CLEAR keeps the configuration and nothing else. -/
theorem test_clear_vector : exec .clear (stateOf [0x5A, 0xA5, 0x00] true 0 false 64) = .next (stateOf [] false 0 false 64) := rfl

/-- V-C3: the reserved opcode 0x07. -/
theorem test_illegal_vector :
    illegalCommand Params.reference (seeking [0x5A]) = { seeking [0x5A] with events := [.diag .illegalCmd] } := by decide

/-- V-R1: `RST` mid-frame, while an ENCODE whose frame is not yet delivered is in progress; what follows the ENCODE stays. -/
theorem test_reset_vector :
    answer (step { stateOf [0x5A, 0xA5, 0x00] true 0 false 64 with
      cmdIn := [0x04, 0x01, 0, 0, 0, 0, 0x02], rst := some (.duringCommand 0 0 0) })
      = some { State.reset with cmdIn := [0x02] } := by decide +kernel

/-- With a capacity of 4096 the buffer takes 4096 bytes and not one more, although the reset ceiling is 1048576 (R41, log entry 2). -/
theorem test_capacity_bounds_the_buffer :
    let P := { Params.reference with bufCapacityPred := 4095 }
    State.reset.ceiling P = 4096 ∧ ¬ State.reset.Overflows P 4096 ∧ State.reset.Overflows P 4097 ∧
      (feed P (List.replicate 4097 0x5A) State.reset) = { State.reset with events := [.diag .overflow] } := by
  decide +kernel

/-! ## Witnesses: a state and operands that meet the hypotheses of each statement, clause by clause -/

/-- The machine's Magic. -/
def magic : List Byte := [Config.magic0, Config.magic1]

/-- A byte that is not M0. -/
def notM0 : Byte := ~~~ Config.magic0

theorem notM0_ne : notM0 ≠ Config.magic0 := fun h => by
  have := congrArg (·.getLsbD 0) h
  simp [notM0] at this

/-- The checksum of the Length bytes of a one-byte payload. -/
def lengthCheck1 : Check := Config.checksum16 [0x00, 0x00, 0x00, 0x01]

/-- The open parameters, with the capacity of the spec's reference model, which has room for the frames below. -/
def wide : Params := { Config.params with bufCapacityPred := 4294967294 }

/-- The frame this block builds for the one-byte payload b. -/
def frame1 (c : Bool) (b : Byte) : List Byte := buildFrame wide c [b]

/-- The frame's header. -/
def header1 : List Byte := magic ++ [0x00, 0x00, 0x00, 0x01] ++ bytesBE16 lengthCheck1

theorem lengthBytes_one : bytesBE32 (BitVec.ofNat 32 1) = [0x00, 0x00, 0x00, 0x01] := by decide

theorem frame1_eq (c : Bool) (b : Byte) :
    frame1 c b = header1 ++ [b] ++ bytesBE16 (payloadCheck wide c lengthCheck1 [b]) := by
  simp only [frame1, buildFrame, List.length_singleton, lengthBytes_one]; rfl

theorem exec_frame1 (c : Bool) (b : Byte) (s : State) :
    exec (.encode c [b]) s = .next { s with events := s.events ++ [.frame (frame1 c b)] } := rfl

theorem encode_frame1 (c : Bool) (b : Byte) (s : State) :
    transition wide (.encode c [b]) s = .next { s with events := s.events ++ [.frame (frame1 c b)] } := rfl

theorem acceptable_frame1 (c : Bool) (b : Byte) {max : Word} (h : 11 ≤ max.toNat) :
    AcceptableFrame wide c max (frame1 c b) [b] := by
  rw [frame1_eq]
  refine ⟨rfl, rfl, rfl, Nat.le_refl 1, ?_, (be16_bytesBE16 _).symm, rfl, (be16_bytesBE16 _).trans ?_⟩
  · refine Nat.le_trans (m := 11) ?_ h
    change 1 + wide.fixedHeaderSize.bytes ≤ 11
    cases wide.fixedHeaderSize <;> decide
  · cases c
    · rw [show slice (header1 ++ [b] ++ _) 6 2 = bytesBE16 lengthCheck1 from rfl, be16_bytesBE16]; rfl
    · simp only [payloadCheck, if_true]; rfl

theorem check_split (c : Check) : c.extractLsb' 8 8 ++ c.extractLsb' 0 8 = c := by
  ext i h
  simp only [BitVec.getElem_append, BitVec.getElem_extractLsb']
  split
  · simp [BitVec.getLsbD_eq_getElem, h]
  · rw [show 8 + (i - 8) = i by omega]; simp [h]

theorem compl_ne (c : Check) : ~~~ c ≠ c := fun h => by
  have := congrArg (·.getLsbD 0) h
  simp at this

theorem test_witness_DecodeUndoesEncode :
    (Instr.feed [0x5A]).wellFormed = true ∧ (Instr.encode true []).wellFormed = true ∧ (Instr.config false 64).wellFormed = true ∧
      Instr.clear.wellFormed = true ∧ (Instr.illegal80 127).wellFormed = true := by decide

/-- Also of `CommandStreamIsSelfDelimiting`. -/
theorem test_witness_EncodeUndoesDecodeButForReservedBits :
    decode [0x03, 0xFF, 0x00, 0x00, 0x00, 0x40, 0x02] = .command (.config true 64) [0x02] ∧
      decode [0x01, 0x00, 0x00, 0x00, 0x00] = .command (.feed []) [] := by decide

theorem test_witness_ReservedFlagBitsAreIgnored :
    ((0x03 : Byte) = 0x03 ∨ (0x03 : Byte) = 0x04) ∧ ((0x04 : Byte) = 0x03 ∨ (0x04 : Byte) = 0x04) := by decide

/-- The ends of the reserved range. -/
theorem test_witness_ReservedOpcodesAreIllegalCommands :
    Reserved 0x00 ∧ Reserved 0x05 ∧ Reserved 0xFF ∧ ¬ Reserved 0x01 ∧ ¬ Reserved 0x04 := by decide

/-- Also of `FrameFieldsStandInTheirPlaces`. -/
theorem test_witness_EncodeEmitsItsFrame :
    ([] : List Byte).length < 2 ^ 32 ∧ (List.replicate (2 ^ 32 - 1) (0 : Byte)).length < 2 ^ 32 := by
  simp only [List.length_replicate]; decide

theorem test_witness_EncodeRefusesAnInexpressiblePayload : 2 ^ 32 ≤ (List.replicate (2 ^ 32) (0 : Byte)).length := by
  simp only [List.length_replicate]; decide

theorem test_witness_LightModeFramesDifferOnlyInPayload :
    ([0x68, 0x69] : List Byte).length = ([0x79, 0x6F] : List Byte).length ∧ ([0x68, 0x69] : List Byte).length < 2 ^ 32 := by
  decide

/-- The Magic at the front, and behind one other byte. -/
theorem test_witness_SeekStep_magic :
    (MagicAt Config.params magic 0 ∧ ∀ j < 0, ¬ MagicAt Config.params magic j) ∧
      (MagicAt Config.params (notM0 :: magic) 1 ∧ ∀ j < 1, ¬ MagicAt Config.params (notM0 :: magic) j) := by
  refine ⟨⟨⟨rfl, rfl⟩, fun _ h => absurd h (Nat.not_lt_zero _)⟩, ⟨rfl, rfl⟩, fun j h hm => ?_⟩
  obtain rfl : j = 0 := by omega
  exact notM0_ne (Option.some.inj hm.1)

/-- No Magic: nothing, and a lone M0. -/
theorem test_witness_SeekStep_none :
    (seeking []).headerFound = false ∧ (∀ i, ¬ MagicAt Config.params [] i) ∧ ∀ i, ¬ MagicAt Config.params [Config.magic0] i := by
  simp [MagicAt, seeking, stateOf]

/-- The wait, at its boundary. -/
theorem test_witness_HeaderStep_wait :
    let s := stateOf (header1.take 7) true 0 true 11
    s.headerFound = true ∧ s.pendingLength = 0 ∧ s.buf.length = 7 := ⟨rfl, rfl, rfl⟩

/-- Length 0; a Length above the limit; a wrong LengthCheck; an accepted header. -/
theorem test_witness_HeaderStep_checks :
    (0 : Nat) = (0x00 : Byte).toNat * 2 ^ 24 + (0x00 : Byte).toNat * 2 ^ 16 + (0x00 : Byte).toNat * 2 ^ 8 + (0x00 : Byte).toNat ∧
      (0 : Word).toNat < 1 + Config.fixedHeaderSize.bytes ∧ ¬ (11 : Word).toNat < 1 + Config.fixedHeaderSize.bytes ∧
      lengthCheck1 ≠ (~~~ lengthCheck1).extractLsb' 8 8 ++ (~~~ lengthCheck1).extractLsb' 0 8 ∧
      lengthCheck1 = lengthCheck1.extractLsb' 8 8 ++ lengthCheck1.extractLsb' 0 8 ∧
      header1 = Config.magic0 :: Config.magic1 :: 0x00 :: 0x00 :: 0x00 :: 0x01 :: lengthCheck1.extractLsb' 8 8
        :: lengthCheck1.extractLsb' 0 8 :: [] := by
  refine ⟨rfl, ?_, ?_, ?_, (check_split _).symm, rfl⟩
  · cases Config.fixedHeaderSize <;> decide
  · cases Config.fixedHeaderSize <;> decide
  · rw [check_split]; exact (compl_ne _).symm

/-- The wait, at its boundary. -/
theorem test_witness_PayloadStep_wait :
    let s := stateOf (header1 ++ [0x61, 0x00]) true 1 true 11
    s.headerFound = true ∧ s.pendingLength ≠ 0 ∧ s.buf.length = 10 := ⟨rfl, by decide, rfl⟩

/-- A whole frame whose PayloadCheck is the given one. -/
theorem test_witness_PayloadStep_frame (c : Bool) (check : Check) :
    let s := stateOf (header1 ++ [0x61] ++ bytesBE16 check) true 1 c 11
    s.headerFound = true ∧ s.pendingLength ≠ 0 ∧ (magic ++ [0x00, 0x00, 0x00, 0x01]).length = 6 ∧
      ([0x61] : List Byte).length = s.pendingLength.toNat ∧
      s.buf = (magic ++ [0x00, 0x00, 0x00, 0x01]) ++ lengthCheck1.extractLsb' 8 8 :: lengthCheck1.extractLsb' 0 8
        :: ([0x61] ++ check.extractLsb' 8 8 :: check.extractLsb' 0 8 :: []) :=
  ⟨rfl, (by decide : (1 : Word) ≠ 0), rfl, rfl, rfl⟩

/-- In both modes a PayloadCheck that is accepted, and one that is not. -/
theorem test_witness_PayloadStep_both_outcomes (c : Bool) :
    let expected := if c then Config.checksum16 [0x61] else ~~~ lengthCheck1
    expected = expected.extractLsb' 8 8 ++ expected.extractLsb' 0 8 ∧
      expected ≠ (~~~ expected).extractLsb' 8 8 ++ (~~~ expected).extractLsb' 0 8 := by
  intro expected
  exact ⟨(check_split _).symm, by rw [check_split]; exact (compl_ne _).symm⟩

/-- A step that waits, and one that continues: a zero Length is rejected. -/
theorem test_witness_ParseStepsKeepTheLoopInvariant :
    (LoopInvariant Config.params State.reset ∧ parseStep Config.params State.reset = .wait State.reset) ∧
      let s := stateOf (magic ++ [0, 0, 0, 0, 0, 0]) true 0 true 11
      LoopInvariant Config.params s ∧ parseStep Config.params s = .again (s.reject Config.params .lenZero) :=
  ⟨⟨⟨fun h => absurd rfl h, (nomatch ·)⟩, rfl⟩, ⟨fun _ => rfl, fun _ => rfl⟩, rfl⟩

/-- A ceiling of 1, which every capacity allows. -/
theorem ceiling_one (buf : List Byte) (hf : Bool) (pl : Word) (c : Bool) (P : Params) : (stateOf buf hf pl c 1).ceiling P = 1 :=
  State.ceiling_eq (Nat.le_add_left 1 _)

/-- A chunk that reaches the ceiling. -/
theorem test_witness_FeedParsesUntilItWaits : Fits Config.params (stateOf [] false 0 true 1) ([0x5A] : List Byte).length := by
  rw [Fits, ceiling_one]; decide

/-- A chunk one byte above the ceiling: with a byte buffered it fits alone, so that the policy decides; without one it is always
dropped. A chunk that reaches the ceiling is parsed. -/
theorem test_witness_OverflowGuardResetsTheDeframer :
    (1 : Word).toNat ≤ Config.bufCapacityPred.val + 1 ∧
      (stateOf [0x5A] false 0 true 1).Overflows Config.params 1 ∧ ¬ (stateOf [0x5A] false 0 true 1).maxBufferSize.toNat < 1 ∧
      (stateOf [] false 0 true 1).Overflows Config.params 2 ∧ (stateOf [] false 0 true 1).maxBufferSize.toNat < 2 ∧
      ¬ (stateOf [] false 0 true 1).Overflows Config.params 1 := by
  simp only [State.Overflows, ceiling_one]
  exact ⟨Nat.le_add_left 1 _, by decide⟩

/-- A capacity of 4096 below the reset ceiling: under either policy a chunk that overflows and fits alone, one that does not, and one
that fills the buffer. -/
theorem test_witness_CapacityGuardsWhereTheCeilingIsAboveIt :
    let P := { Params.reference with bufCapacityPred := 4095 }
    P.bufCapacity < State.reset.maxBufferSize.toNat ∧ P.bufCapacity < (seeking [0x5A]).buf.length + 4096 ∧
      ¬ P.bufCapacity < 4096 ∧ P.bufCapacity < 4097 := by decide

theorem test_witness_FeedFrameIsUnchanged : exec (.feed []) State.reset = .next State.reset := rfl

theorem quiescent_of_empty (P : Params) (c : Bool) (max : Word) : Quiescent P (stateOf [] false 0 c max) :=
  ⟨fun _ => ⟨rfl, .inl rfl⟩, (nomatch ·), (nomatch ·), (nomatch ·)⟩

theorem test_witness_EmptyFeedIsIdle :
    (let s := stateOf [] false 0 true 0
     Quiescent Config.params s ∧ s.buf.length ≤ s.ceiling Config.params) ∧
      let s := stateOf [Config.magic0] false 0 true 0
      Quiescent Config.params s ∧ ¬ s.buf.length ≤ s.ceiling Config.params :=
  ⟨⟨quiescent_of_empty _ _ _, Nat.zero_le _⟩,
    ⟨fun _ => ⟨rfl, .inr rfl⟩, (nomatch ·), (nomatch ·), (nomatch ·)⟩, Nat.not_le.2 (Nat.lt_succ_of_le (State.ceiling_le_max _ _))⟩

/-- The two premises at their boundaries: a frame one byte short, and a Length in the band that no ceiling lets through. -/
theorem test_witness_IncompleteFrameOnlyAccumulates :
    (let s := stateOf (header1 ++ [0x61]) true 1 true 11
     s.headerFound = true ∧ s.pendingLength ≠ 0 ∧ Fits wide s ([0x00] : List Byte).length ∧
       s.buf.length + ([0x00] : List Byte).length < 10 + s.pendingLength.toNat) ∧
      let s := stateOf header1 true 1 true 10
      s.headerFound = true ∧ s.pendingLength ≠ 0 ∧ Fits wide s ([0x00, 0x00] : List Byte).length ∧
        s.ceiling wide < 10 + s.pendingLength.toNat :=
  ⟨⟨rfl, by decide, Nat.le_succ 10, by decide +kernel⟩, rfl, by decide, Nat.le_refl 10, by decide +kernel⟩

theorem test_witness_CeilingBelowElevenEmitsNothing : (stateOf [] false 0 true 10).ceiling Config.params < 11 :=
  Nat.lt_succ_of_le (State.ceiling_le_max _ _)

/-- An empty deframer with room for one 11-byte frame. -/
def room11 (c : Bool) : State := stateOf [] false 0 c 11

theorem frame1_length (c : Bool) (b : Byte) : (frame1 c b).length = 11 := rfl

theorem test_witness_AcceptableFrameIsEmitted (c : Bool) :
    (room11 c).headerFound = false ∧ (room11 c).buf = [] ∧ (frame1 c 0x61).length ≤ (room11 c).ceiling wide ∧
      AcceptableFrame wide (room11 c).useChecksum (room11 c).maxBufferSize (frame1 c 0x61) [0x61] :=
  ⟨rfl, rfl, Nat.le_refl 11, acceptable_frame1 c _ (Nat.le_refl 11)⟩

theorem test_witness_GarbageBeforeAFrameIsDiscarded :
    let s := stateOf [] false 0 true 12
    s.headerFound = false ∧ s.buf = [] ∧ ([notM0] ++ frame1 true 0x61).length ≤ s.ceiling wide ∧
      AcceptableFrame wide s.useChecksum s.maxBufferSize (frame1 true 0x61) [0x61] ∧
      ∀ i < [notM0].length, ¬ MagicAt wide ([notM0] ++ frame1 true 0x61) i := by
  refine ⟨rfl, rfl, Nat.le_refl 12, acceptable_frame1 true _ (by decide), fun i h hm => ?_⟩
  obtain rfl : i = 0 := Nat.lt_one_iff.1 h
  exact notM0_ne (Option.some.inj hm.1)

theorem test_witness_RoundTripInAnyPartition (c : Bool) :
    1 ≤ ([0x61] : List Byte).length ∧ ([0x61] : List Byte).length + 10 ≤ (room11 c).ceiling wide ∧
      (room11 c).headerFound = false ∧ (room11 c).buf = [] ∧
      transition wide (.encode (room11 c).useChecksum [0x61]) (room11 c)
        = .next { room11 c with events := (room11 c).events ++ [.frame (frame1 c 0x61)] } ∧
      [(frame1 c 0x61).take 3, [], (frame1 c 0x61).drop 3].flatten = frame1 c 0x61 :=
  ⟨Nat.le_refl 1, Nat.le_refl 11, rfl, rfl, rfl, by simp⟩

theorem test_witness_ChunkSizeIndependence :
    Quiescent wide State.reset ∧ [[0x5A], [0xA5]].flatten = ([[0x5A, 0xA5]] : List (List Byte)).flatten ∧
      NoOverflow wide [[0x5A], [0xA5]] State.reset ∧ NoOverflow wide [[0x5A, 0xA5]] State.reset := by
  have h1 : Fits wide State.reset ([0x5A] : List Byte).length := by unfold Fits; decide +kernel
  refine ⟨quiescent_of_empty _ _ _, rfl, ⟨h1, ?_⟩, by unfold Fits; decide +kernel, fun _ _ => trivial⟩
  rintro t ⟨⟩
  refine ⟨?_, fun _ _ => trivial⟩
  rw [feed_of_fits h1]
  have h := parse_frame wide (State.reset.bufAppend [0x5A])
  have hb : (State.reset.bufAppend [0x5A]).buf.length = 1 := rfl
  have hm : (State.reset.bufAppend [0x5A]).ceiling wide = 1048576 := rfl
  have := h.shrinks
  simp only [Fits, State.ceiling_congr h.maxBufferSize, hm, List.length_singleton]
  omega

theorem test_witness_PipelinedFramesBothEmit (c : Bool) :
    let s := stateOf [] false 0 c 22
    1 ≤ ([0x61] : List Byte).length ∧ 1 ≤ ([0x62] : List Byte).length ∧
      ([0x61] : List Byte).length + ([0x62] : List Byte).length + 20 ≤ s.ceiling wide ∧
      s.headerFound = false ∧ s.buf = [] ∧
      transition wide (.encode s.useChecksum [0x61]) s = .next { s with events := s.events ++ [.frame (frame1 c 0x61)] } ∧
      transition wide (.encode s.useChecksum [0x62]) s = .next { s with events := s.events ++ [.frame (frame1 c 0x62)] } :=
  ⟨Nat.le_refl 1, Nat.le_refl 1, Nat.le_refl 22, rfl, rfl, rfl, rfl⟩

/-- The quiescent states a FEED can start in: nothing buffered, a header that is not whole, and a header accepted. -/
theorem test_witness_EmittedPayloadsAreFramesOfTheStream :
    (Quiescent wide State.reset ∧ Fits wide State.reset 1) ∧
      (Quiescent wide (stateOf magic true 0 true 11) ∧ Fits wide (stateOf magic true 0 true 11) 9) ∧
      Quiescent wide (stateOf header1 true 1 true 11) ∧ Fits wide (stateOf header1 true 1 true 11) 3 := by
  refine ⟨⟨quiescent_of_empty _ _ _, by unfold Fits; decide +kernel⟩, ⟨⟨?_, ?_, ?_, ?_⟩, Nat.le_refl 11⟩, ⟨?_, ?_, ?_, ?_⟩, Nat.le_refl 11⟩
  · exact fun h => nomatch h
  · exact fun _ => ⟨rfl, by decide +kernel⟩
  · exact fun h => nomatch h
  · exact fun _ => by decide +kernel
  · exact fun h => nomatch h
  · exact fun h => nomatch h
  · refine fun _ => ⟨?_, rfl, rfl, (be16_bytesBE16 _).symm, Nat.le_refl 8, by decide +kernel⟩
    change 1 + wide.fixedHeaderSize.bytes ≤ 11
    cases wide.fixedHeaderSize <;> decide
  · exact fun _ => by decide +kernel

theorem test_witness_LightModeAcceptsAnyPayload :
    (room11 false).useChecksum = false ∧ (room11 false).headerFound = false ∧ (room11 false).buf = [] ∧
      1 ≤ ([0x61] : List Byte).length ∧ ([0x61] : List Byte).length = ([0x62] : List Byte).length ∧
      ([0x61] : List Byte).length + 10 ≤ (room11 false).ceiling wide ∧ header1.length = 8 ∧
      transition wide (.encode false [0x61]) (room11 false) = .next { room11 false with
        events := (room11 false).events
          ++ [.frame (header1 ++ [0x61] ++ bytesBE16 (payloadCheck wide false lengthCheck1 [0x61]))] } :=
  ⟨rfl, rfl, rfl, by decide, rfl, by decide, rfl, by rw [← frame1_eq]; rfl⟩

theorem test_witness_EmptyPayloadFrameIsRejected (c : Bool) :
    let s := stateOf [] false 0 true 10
    s.headerFound = false ∧ s.buf = [] ∧ 10 ≤ s.ceiling wide ∧
      transition wide (.encode c []) s = .next { s with events := s.events ++ [.frame (buildFrame wide c [])] } :=
  ⟨rfl, rfl, Nat.le_refl 10, rfl⟩

theorem test_witness_FrameAfterAnOversizedChunkIsFound (c : Bool) :
    (room11 c).ceiling wide < (List.replicate 12 (0x11 : Byte)).length ∧ 1 ≤ ([0x61] : List Byte).length ∧
      ([0x61] : List Byte).length + 10 ≤ (room11 c).ceiling wide ∧
      transition wide (.encode (room11 c).useChecksum [0x61]) (room11 c)
        = .next { room11 c with events := (room11 c).events ++ [.frame (frame1 c 0x61)] } :=
  ⟨Nat.le_refl 12, by decide, Nat.le_refl 11, rfl⟩

theorem test_witness_DiagnosticsNeverAffectTheRest :
    SameButDiags State.reset { State.reset with events := [.diag .overflow] } := ⟨rfl, rfl, rfl, rfl, rfl, rfl, rfl⟩

theorem exec_config_one : exec (.config false 1) State.reset
    = .next { State.reset with useChecksum := false, maxBufferSize := 1 } := by
  have h : ¬ Config.params.bufCapacity < (1 : Word).toNat := Nat.not_lt.2 (Nat.le_add_left 1 _)
  simp only [exec, execConfig, configure, if_neg h]; rfl

/-- Also of `StepRunsTheDecodedCommand` on CONFIG. -/
theorem test_witness_OnlyConfigAndResetWriteTheConfiguration :
    ∃ t, step { State.reset with cmdIn := [0x03, 0x00, 0x00, 0x00, 0x00, 0x01] } = .next t ∧
      (t.useChecksum ≠ State.reset.useChecksum ∨ t.maxBufferSize ≠ State.reset.maxBufferSize) :=
  ⟨_, exec_config_one, .inl (by decide)⟩

theorem test_witness_OnlyFeedAndClearWriteTheDecoder :
    ∃ t, exec .clear (seeking [0x5A]) = .next t ∧
      (t.buf ≠ (seeking [0x5A]).buf ∨ t.headerFound ≠ (seeking [0x5A]).headerFound
        ∨ t.pendingLength ≠ (seeking [0x5A]).pendingLength) :=
  ⟨_, rfl, .inl (by decide)⟩

theorem test_witness_CommandsKeepTheCeilingWithinCapacity :
    ∃ t, exec .clear (stateOf [0x5A] false 0 true 1) = .next t ∧
      (stateOf [0x5A] false 0 true 1).maxBufferSize.toNat ≤ Config.bufCapacityPred.val + 1 :=
  ⟨_, rfl, Nat.le_add_left 1 _⟩

/-- Of both channels: an ENCODE that adds a `Frame`, and an empty FEED behind a whole frame, which adds a `Payload`. -/
theorem test_witness_CommandsOnlyAddTheirOwnEvents :
    (∃ t, transition wide (.encode true [0x61]) State.reset = .next t ∧ framesOf t.events ≠ framesOf State.reset.events) ∧
      ∃ t, transition wide (.feed []) (stateOf (frame1 true 0x61) true 1 true 11) = .next t ∧
        payloadsOf t.events ≠ payloadsOf (stateOf (frame1 true 0x61) true 1 true 11).events := by
  refine ⟨⟨_, encode_frame1 true 0x61 _, (nomatch ·)⟩, _, rfl, ?_⟩
  have hs : parseStep wide (stateOf (frame1 true 0x61) true 1 true 11)
      = .again { room11 true with events := [.payload [0x61]] } := by
    have hc := (acceptable_frame1 true 0x61 (max := 11) (by decide)).payloadCheck
    exact if_pos hc.symm
  have hf : (stateOf (frame1 true 0x61) true 1 true 11).bufAppend [] = stateOf (frame1 true 0x61) true 1 true 11 := rfl
  have hfits : Fits wide (stateOf (frame1 true 0x61) true 1 true 11) ([] : List Byte).length := Nat.le_refl 11
  rw [feed_of_fits hfits, hf, parse_of_again hs,
    parse_of_wait (t := { room11 true with events := [.payload [0x61]] }) rfl]
  exact fun h => nomatch h

theorem test_witness_StepsKeepTheBufferWithinCapacity :
    ({ seeking [0x5A] with cmdIn := [0x02] } : State).buf.length ≤ Config.bufCapacityPred.val + 1 ∧
      step { seeking [0x5A] with cmdIn := [0x02] } = .next (seeking []) := ⟨Nat.le_add_left 1 _, rfl⟩

theorem test_witness_StepRunsTheDecodedCommand :
    ({ State.reset with cmdIn := [0x02, 0x07] } : State).rst = none ∧ decode [0x02, 0x07] = .command .clear [0x07] := by decide

theorem test_witness_StepWaitsForAWholeCommand :
    ({ State.reset with cmdIn := [0x01] } : State).rst = none ∧ decode [0x01] = .rejected .shortOperands := by decide

/-- Between commands; behind a short command; and while an ENCODE is in progress. -/
theorem test_witness_ResetAbortsTheCommandInProgress :
    ({ State.reset with rst := some .betweenCommands } : State).rst = some .betweenCommands ∧
      decode [0x01, 0x00] = .rejected .shortOperands ∧
      decode [0x04, 0x01, 0x00, 0x00, 0x00, 0x01, 0x61, 0x02] = .command (.encode true [0x61]) [0x02] ∧
      exec (.encode true [0x61]) { State.reset with cmdIn := [0x02], rst := some (.duringCommand 0 1 0) }
        = .next { State.reset with
          cmdIn := [0x02], rst := some (.duringCommand 0 1 0), events := [.frame (frame1 true 0x61)] } :=
  ⟨rfl, by decide, by decide, rfl⟩

/-- Steps that run a FEED, a CLEAR behind a retained M0, and an `RST` that aborts a CONFIG; and the idle step. -/
theorem test_witness_StepsKeepTheQuiescentInvariant :
    (Quiescent Config.params { State.reset with cmdIn := [0x01, 0, 0, 0, 1, 0x5A] } ∧
      ∃ t, step { State.reset with cmdIn := [0x01, 0, 0, 0, 1, 0x5A] } = .next t) ∧
    (Quiescent Config.params { seeking [Config.magic0] with cmdIn := [0x02] } ∧
      step { seeking [Config.magic0] with cmdIn := [0x02] } = .next (seeking [])) ∧
    (Quiescent Config.params
        { State.reset with cmdIn := [0x03, 0, 0, 0, 0, 1], rst := some (.duringCommand 0 0 0) } ∧
      ∃ t, step { State.reset with cmdIn := [0x03, 0, 0, 0, 0, 1], rst := some (.duringCommand 0 0 0) } = .next t) ∧
    Quiescent Config.params State.reset ∧ step State.reset = .next State.reset := by
  refine ⟨⟨⟨fun _ => ⟨rfl, .inl rfl⟩, (nomatch ·), (nomatch ·), (nomatch ·)⟩, _, rfl⟩,
    ⟨⟨fun _ => ⟨rfl, .inr rfl⟩, (nomatch ·), (nomatch ·), (nomatch ·)⟩, rfl⟩,
    ⟨⟨fun _ => ⟨rfl, .inl rfl⟩, (nomatch ·), (nomatch ·), (nomatch ·)⟩, _, rfl⟩, quiescent_of_empty _ _ _, rfl⟩

/-- The same mid-frame, for every capacity that has room for the bytes buffered: a FEED behind a Magic, and behind an accepted header. -/
theorem test_witness_StepsKeepTheQuiescentInvariant_mid_frame (room : 8 ≤ Config.bufCapacityPred.val + 1) :
    (let s := { stateOf magic true 0 true 11 with cmdIn := [0x01, 0, 0, 0, 1, 0x5A] }
     Quiescent Config.params s ∧ ∃ t, step s = .next t) ∧
      let s := { stateOf header1 true 1 true 11 with cmdIn := [0x01, 0, 0, 0, 1, 0x5A] }
      Quiescent Config.params s ∧ ∃ t, step s = .next t := by
  refine ⟨⟨⟨(nomatch ·), fun _ => ⟨rfl, by decide +kernel⟩, (nomatch ·), fun _ => ?_⟩, _, rfl⟩,
    ⟨(nomatch ·), (nomatch ·), fun _ => ⟨?_, rfl, rfl, (be16_bytesBE16 _).symm, Nat.le_refl 8, by decide +kernel⟩, fun _ => ?_⟩,
    _, rfl⟩
  · exact le_min (by decide +kernel) (Nat.le_trans (by decide +kernel) room)
  · change 1 + Config.params.fixedHeaderSize.bytes ≤ 11
    cases Config.params.fixedHeaderSize <;> decide
  · exact le_min (by decide +kernel) room

end Sys2Proof.Tests
end

section
/-! SUPPORT. What a step does with the command at the head of `CMD_IN`, and that `exec` is the transition of the open parameters. -/

namespace Sys2Proof.Machine

/-- R6, R16: each arm of `exec` is the named operation of `transition` at the open parameters. -/
theorem exec_eq_transition (i : Instr) (s : State) : exec i s = transition Config.params i s := by
  cases i with
  | feed chunk => rfl
  | clear => rfl
  | config c m => rfl
  | encode c payload => rfl
  | illegal00 => rfl
  | illegal05 => rfl
  | illegal06 low => rfl
  | illegal08 low => rfl
  | illegal10 low => rfl
  | illegal20 low => rfl
  | illegal40 low => rfl
  | illegal80 low => rfl

theorem fetch_of_command {s : State} {i : Instr} {rest : List Byte} (h : decode s.cmdIn = .command i rest) :
    fetch s = some (i, { s with cmdIn := rest }) := by
  simp only [fetch, h]

theorem step_of_fetch {s taken : State} {i : Instr} (hrst : s.rst = none) (h : fetch s = some (i, taken)) :
    step s = exec i taken := by
  simp only [step, hrst, h]

end Sys2Proof.Machine
end

section
/-! The statements of 00_scope. -/

open Sys2Proof.Machine

namespace Sys2Proof.Proofs

/-- Settles O43, by cases on the command. -/
theorem execIsTheTransitionOfItsParameters : Obligations.ExecIsTheTransitionOfItsParameters :=
  exec_eq_transition

/-- Settles O44: with no `RST` asserted the step runs what is fetched, which is the decoded command and the state without its bytes. -/
theorem stepRunsTheDecodedCommand : Obligations.StepRunsTheDecodedCommand :=
  fun _ _ _ hrst hdecode => step_of_fetch hrst (fetch_of_command hdecode)

end Sys2Proof.Proofs
end

section
/-! SUPPORT. What a command and a step can do, each said once; what FEED leaves alone, and how the ceiling bounds it. -/

namespace Sys2Proof.Machine

open Sys2Proof.Safety

variable {P : Params} {s t : State} {chunk : List Byte}

/-! ## What a command and a step can do -/

/-- Every way a command can complete (R85, R95, R135 to R140). -/
inductive CommandStep (P : Params) (s : State) : Instr → State → Prop where
  | feed (chunk : List Byte) : CommandStep P s (.feed chunk) (feed P chunk s)
  | clear : CommandStep P s .clear s.clearDecoder
  | configRejected (c : Bool) (m : Word) (why : s.headerFound = true ∨ P.bufCapacity < m.toNat) :
      CommandStep P s (.config c m) (s.diag P .cfgRejected)
  | configAccepted (c : Bool) (m : Word) (between : s.headerFound = false) (within : m.toNat ≤ P.bufCapacity) :
      CommandStep P s (.config c m) { s with useChecksum := c, maxBufferSize := m }
  | encode (c : Bool) (p : List Byte) (fits : lengthFits p = true) :
      CommandStep P s (.encode c p) (s.emit (.frame (buildFrame P c p)))
  | illegal {i : Instr} {op : Byte} (row : ReservedRow i op) : CommandStep P s i (s.diag P .illegalCmd)

theorem commandStep_configure (P : Params) (s : State) (c : Bool) (m : Word) :
    CommandStep P s (.config c m) (configure P c m s) := by
  unfold configure
  split_ifs with hf hm
  · exact .configRejected c m (.inl hf)
  · exact .configRejected c m (.inr hm)
  · exact .configAccepted c m (eq_false_of_ne_true hf) (Nat.not_lt.1 hm)

theorem transition_inv {i : Instr} (h : transition P i s = .next t) : CommandStep P s i t := by
  cases i with
  | feed chunk => cases h; exact .feed chunk
  | clear => cases h; exact .clear
  | config c m => cases h; exact commandStep_configure P s c m
  | encode c p =>
    simp only [transition, encodePayload] at h
    split_ifs at h with hp
    cases h; exact .encode c p hp
  | illegal00 => cases h; exact .illegal reservedRow_00
  | illegal05 => cases h; exact .illegal reservedRow_05
  | illegal06 low => cases h; exact .illegal (reservedRow_06 low)
  | illegal08 low => cases h; exact .illegal (reservedRow_08 low)
  | illegal10 low => cases h; exact .illegal (reservedRow_10 low)
  | illegal20 low => cases h; exact .illegal (reservedRow_20 low)
  | illegal40 low => cases h; exact .illegal (reservedRow_40 low)
  | illegal80 low => cases h; exact .illegal (reservedRow_80 low)

theorem exec_inv {i : Instr} (h : exec i s = .next t) : CommandStep Config.params s i t :=
  transition_inv (exec_eq_transition i s ▸ h)

/-- Every way a step can end in a next state: an asserted `RST` is taken, a whole command is executed with its bytes taken, or the
block waits (R50, R166, R175). -/
inductive StepCase (s : State) : State → Prop where
  | reset (r : ResetInput) (asserted : s.rst = some r) : StepCase s (takeReset r s)
  | command {i : Instr} {rest : List Byte} {t : State} (quiet : s.rst = none) (decoded : decode s.cmdIn = .command i rest)
      (ran : CommandStep Config.params { s with cmdIn := rest } i t) : StepCase s t
  | waiting {why : DecodeReject} (quiet : s.rst = none) (rejected : decode s.cmdIn = .rejected why) : StepCase s s

theorem step_inv (h : step s = .next t) : StepCase s t := by
  cases hr : s.rst with
  | some r =>
    simp only [step, hr] at h
    cases h; exact .reset r hr
  | none =>
    cases hd : decode s.cmdIn with
    | command i rest =>
      rw [step_of_fetch hr (fetch_of_command hd)] at h
      exact .command hr hd (exec_inv h)
    | rejected why =>
      simp only [step, hr, fetch, hd] at h
      cases h; exact .waiting hr hd

@[simp] theorem takeReset_buf (r : ResetInput) (s : State) : (takeReset r s).buf = [] := by cases r <;> rfl
@[simp] theorem takeReset_headerFound (r : ResetInput) (s : State) : (takeReset r s).headerFound = false := by cases r <;> rfl
@[simp] theorem takeReset_pendingLength (r : ResetInput) (s : State) : (takeReset r s).pendingLength = 0 := by cases r <;> rfl

/-! ## What FEED and the other commands leave alone -/

theorem feed_frame (P : Params) (chunk : List Byte) (s : State) :
    (feed P chunk s).useChecksum = s.useChecksum ∧ (feed P chunk s).maxBufferSize = s.maxBufferSize ∧
      (feed P chunk s).cmdIn = s.cmdIn ∧ (feed P chunk s).rst = s.rst ∧ s.events <+: (feed P chunk s).events ∧
      framesOf (feed P chunk s).events = framesOf s.events := by
  obtain ⟨-, h⟩ | ⟨-, h⟩ | ⟨-, -, h⟩ := feed_cases P chunk s <;> rw [h]
  · have f := parse_frame P (s.bufAppend chunk)
    exact ⟨f.useChecksum, f.maxBufferSize, f.cmdIn, f.rst, f.events, f.frames⟩
  · exact ⟨rfl, rfl, rfl, rfl, List.prefix_append _ _, by simp⟩
  · have f := parse_frame P ((s.overflowReset P).bufAppend chunk)
    exact ⟨f.useChecksum, f.maxBufferSize, f.cmdIn, f.rst, (List.prefix_append _ _).trans f.events, f.frames.trans (by simp)⟩

/-- A command leaves the configuration alone, or is a CONFIG with exactly the new values while no header is found (R26). -/
theorem CommandStep.configuration {i : Instr} (h : CommandStep P s i t) :
    (t.useChecksum = s.useChecksum ∧ t.maxBufferSize = s.maxBufferSize) ∨
      (s.headerFound = false ∧ i = .config t.useChecksum t.maxBufferSize) := by
  cases h with
  | feed chunk =>
    obtain ⟨check, max, -⟩ := feed_frame P chunk s
    exact .inl ⟨check, max⟩
  | configAccepted c m between => exact .inr ⟨between, rfl⟩
  | clear => exact .inl ⟨rfl, rfl⟩
  | configRejected => exact .inl ⟨rfl, rfl⟩
  | encode => exact .inl ⟨rfl, rfl⟩
  | illegal => exact .inl ⟨rfl, rfl⟩

/-- A command other than FEED and CLEAR leaves the DecoderState alone (R22). -/
theorem CommandStep.decoder {i : Instr} (h : CommandStep P s i t) :
    (i = .clear ∨ ∃ chunk, i = .feed chunk) ∨
      (t.buf = s.buf ∧ t.headerFound = s.headerFound ∧ t.pendingLength = s.pendingLength) := by
  cases h with
  | feed chunk => exact .inl (.inr ⟨chunk, rfl⟩)
  | clear => exact .inl (.inl rfl)
  | configAccepted => exact .inr ⟨rfl, rfl, rfl⟩
  | configRejected => exact .inr ⟨rfl, rfl, rfl⟩
  | encode => exact .inr ⟨rfl, rfl, rfl⟩
  | illegal => exact .inr ⟨rfl, rfl, rfl⟩

/-! ## The buffer is within the ceiling, and what a small ceiling excludes -/

/-- Whatever was buffered before, FEED leaves at most the ceiling in the buffer (R41, R96). -/
theorem feed_length_le_ceiling (P : Params) (chunk : List Byte) (s : State) :
    (feed P chunk s).buf.length ≤ s.ceiling P := by
  obtain ⟨fits, h⟩ | ⟨-, h⟩ | ⟨-, le, h⟩ := feed_cases P chunk s <;> rw [h]
  · exact (parse_frame P (s.bufAppend chunk)).shrinks.trans (by simpa [Fits] using fits)
  · exact Nat.zero_le _
  · exact (parse_frame P ((s.overflowReset P).bufAppend chunk)).shrinks.trans (by simpa using le)

theorem CommandStep.length_le_capacity {i : Instr} (h : CommandStep P s i t) (hs : s.buf.length ≤ P.bufCapacity) :
    t.buf.length ≤ P.bufCapacity := by
  cases h with
  | feed chunk => exact (feed_length_le_ceiling P chunk s).trans (s.ceiling_le_capacity P)
  | clear => exact Nat.zero_le _
  | configRejected => exact hs
  | configAccepted => exact hs
  | encode => exact hs
  | illegal => exact hs

/-- The shortest frame that is emitted has 11 bytes (R28, R65), so that with fewer no step emits a payload. -/
theorem ContinueStep.payloads_of_short (h : ContinueStep P s t) (short : s.buf.length < 11) :
    payloadsOf t.events = payloadsOf s.events := by
  cases h with
  | payloadAccepted hp enough =>
    have : s.pendingLength.toNat ≠ 0 := fun h0 => hp.2 (BitVec.eq_of_toNat_eq h0)
    omega
  | magicFound => rfl
  | lengthAccepted => rfl
  | zeroLength => simp
  | lengthAboveLimit => simp
  | lengthCheckFailed => simp
  | payloadRejected => simp

theorem WaitStep.events_eq (h : WaitStep P s t) : t.events = s.events := by cases h <;> rfl

theorem parse_payloads_of_short (short : s.buf.length < 11) : payloadsOf (parse P s).events = payloadsOf s.events :=
  parse_induct (C := fun s t => s.buf.length < 11 → payloadsOf t.events = payloadsOf s.events)
    (fun h _ => congrArg payloadsOf h.events_eq)
    (fun h ih short => (ih (h.frame.shrinks.trans_lt short)).trans (h.payloads_of_short short)) s short

theorem feed_payloads_of_ceiling_lt (chunk : List Byte) (h : s.ceiling P < 11) :
    payloadsOf (feed P chunk s).events = payloadsOf s.events := by
  obtain ⟨fits, hf⟩ | ⟨-, hf⟩ | ⟨-, le, hf⟩ := feed_cases P chunk s <;> rw [hf]
  · exact parse_payloads_of_short (by simpa using Nat.lt_of_le_of_lt fits h)
  · simp
  · exact (parse_payloads_of_short (by simpa using Nat.lt_of_le_of_lt le h)).trans (by simp)

/-- The Length field of a whole header fits `pendingLength` (R24). -/
theorem toNat_ofNat_lengthField (h8 : 8 ≤ s.buf.length) : (BitVec.ofNat 32 s.lengthField).toNat = s.lengthField := by
  have hlt : s.lengthField < 256 ^ (s.bufRead 2 4).length := beNat_lt _
  rw [show (s.bufRead 2 4).length = 4 from slice_length _ _ _ (by omega)] at hlt
  rw [BitVec.toNat_ofNat, Nat.mod_eq_of_lt (by simpa using hlt)]

end Sys2Proof.Machine
end

section
/-! SUPPORT. The invariants of R29: inside the parse loop, and at a command boundary. -/

namespace Sys2Proof.Safety

open Sys2Proof.Machine

variable {P : Params} {s t : State} {chunk : List Byte}

/-! ## The invariants inside the parse loop (R29) -/

theorem loopInvariant_of_seeking (hf : s.headerFound = false) (hp : s.pendingLength = 0) : LoopInvariant P s :=
  ⟨fun h => absurd hp h, fun h => by simp [hf] at h⟩

theorem LoopInvariant.pendingLength_eq_zero (h : LoopInvariant P s) (hf : s.headerFound = false) : s.pendingLength = 0 := by
  by_contra hp
  exact absurd (h.pendingNeedsHeader hp) (by simp [hf])

theorem LoopInvariant.continueStep (hi : LoopInvariant P s) (h : ContinueStep P s t) : LoopInvariant P t := by
  cases h with
  | magicFound i _ found =>
    exact ⟨fun _ => rfl, fun _ => magicAt_take_drop (firstMagic_eq_some_iff.1 found).1⟩
  | lengthAccepted phase => exact ⟨fun _ => phase.1, hi.headerIsMagic⟩
  | payloadAccepted => exact loopInvariant_of_seeking rfl rfl
  | zeroLength => exact loopInvariant_of_seeking rfl rfl
  | lengthAboveLimit => exact loopInvariant_of_seeking rfl rfl
  | lengthCheckFailed => exact loopInvariant_of_seeking rfl rfl
  | payloadRejected => exact loopInvariant_of_seeking rfl rfl

theorem LoopInvariant.waitStep (hi : LoopInvariant P s) (h : WaitStep P s t) : LoopInvariant P t := by
  cases h with
  | noMagic hf => exact loopInvariant_of_seeking hf (hi.pendingLength_eq_zero hf)
  | shortHeader => exact hi
  | shortFrame => exact hi

theorem LoopInvariant.bufAppend (h : LoopInvariant P s) (b : List Byte) : LoopInvariant P (s.bufAppend b) where
  pendingNeedsHeader := h.pendingNeedsHeader
  headerIsMagic hf := by
    have magic := h.headerIsMagic hf
    have : 2 ≤ s.buf.length := by simpa using congrArg List.length magic
    rw [State.bufAppend_buf, List.take_append_of_le_length this, magic]

/-- The pending Length is the one the buffered header carries, and it passed the checks of HAVE_HEADER (R24, R116 to R119). -/
structure HeaderAccepted (P : Params) (s : State) : Prop where
  whole : 8 ≤ s.buf.length
  withinLimit : s.pendingLength.toNat + P.fixedHeaderSize.bytes ≤ s.maxBufferSize.toNat
  lengthField : s.lengthField = s.pendingLength.toNat
  lengthCheck : chk P (s.bufRead 2 4) = be16 (s.bufRead 6 2)

theorem HeaderAccepted.bufAppend (h : HeaderAccepted P s) (b : List Byte) : HeaderAccepted P (s.bufAppend b) where
  whole := h.whole.trans (by simp)
  withinLimit := h.withinLimit
  lengthField := by
    have := h.whole
    rw [State.lengthField, bufRead_append (by omega)]
    exact h.lengthField
  lengthCheck := by
    have := h.whole
    rw [bufRead_append (by omega), bufRead_append (by omega)]
    exact h.lengthCheck

/-- What the parse loop keeps until it waits, and what makes the state it then leaves quiescent (R29; `sized` is R96's). -/
structure ParseInvariant (P : Params) (s : State) : Prop where
  loop : LoopInvariant P s
  accepted : s.pendingLength ≠ 0 → HeaderAccepted P s
  sized : s.buf.length ≤ s.ceiling P

theorem ParseInvariant.continueStep (hi : ParseInvariant P s) (h : ContinueStep P s t) : ParseInvariant P t where
  loop := hi.loop.continueStep h
  sized := by
    rw [State.ceiling_congr h.frame.maxBufferSize]
    exact h.frame.shrinks.trans hi.sized
  accepted := by
    cases h with
    | lengthAccepted _ enough _ within equal =>
      have field := toNat_ofNat_lengthField enough
      exact fun _ => ⟨enough, field.symm ▸ within, field.symm, equal⟩
    | magicFound => exact fun h => absurd rfl h
    | payloadAccepted => exact fun h => absurd rfl h
    | zeroLength => exact fun h => absurd rfl h
    | lengthAboveLimit => exact fun h => absurd rfl h
    | lengthCheckFailed => exact fun h => absurd rfl h
    | payloadRejected => exact fun h => absurd rfl h

/-! ## The quiescent invariant (R29) -/

theorem quiescent_of_seeking (hf : s.headerFound = false) (hp : s.pendingLength = 0) (hb : s.buf = [] ∨ s.buf = [P.m0]) :
    Quiescent P s where
  seeking _ := ⟨hp, hb⟩
  header h := by simp [phase_haveHeader_iff, hf] at h
  length h := by simp [phase_haveLength_iff, hf] at h
  sized h := by simp [hf] at h

theorem ParseInvariant.waitStep (hi : ParseInvariant P s) (h : WaitStep P s t) : Quiescent P t := by
  cases h with
  | noMagic hf => exact quiescent_of_seeking hf (hi.loop.pendingLength_eq_zero hf) (retained_eq s.buf)
  | shortHeader phase short =>
    have hph := phase_haveHeader_iff.2 phase
    exact ⟨by simp [hph], fun _ => ⟨hi.loop.headerIsMagic phase.1, short⟩, by simp [hph], fun _ => hi.sized⟩
  | shortFrame phase short =>
    have hph := phase_haveLength_iff.2 phase
    have acc := hi.accepted phase.2
    exact ⟨by simp [hph], by simp [hph],
      fun _ => ⟨acc.withinLimit, hi.loop.headerIsMagic phase.1, acc.lengthField, acc.lengthCheck, acc.whole, short⟩,
      fun _ => hi.sized⟩

theorem ParseInvariant.parse_quiescent (hi : ParseInvariant P s) : Quiescent P (parse P s) :=
  parse_induct (C := fun s t => ParseInvariant P s → Quiescent P t)
    (fun h hi => hi.waitStep h) (fun h ih hi => ih (hi.continueStep h)) s hi

theorem Quiescent.loopInvariant (h : Quiescent P s) : LoopInvariant P s where
  pendingNeedsHeader hp := by
    by_contra hf
    exact hp (h.seeking (phase_seeking_iff.2 (eq_false_of_ne_true hf))).1
  headerIsMagic hf := by
    by_cases hp : s.pendingLength = 0
    · exact (h.header (phase_haveHeader_iff.2 ⟨hf, hp⟩)).1
    · obtain ⟨-, magic, -⟩ := h.length (phase_haveLength_iff.2 ⟨hf, hp⟩)
      exact magic

theorem Quiescent.headerAccepted (h : Quiescent P s) (hp : s.pendingLength ≠ 0) : HeaderAccepted P s := by
  obtain ⟨within, -, field, check, whole, -⟩ :=
    h.length (phase_haveLength_iff.2 ⟨h.loopInvariant.pendingNeedsHeader hp, hp⟩)
  exact ⟨whole, within, field, check⟩

/-- A chunk that fits, appended to a quiescent state, gives one the parse loop can start from. -/
theorem Quiescent.parseInvariant (h : Quiescent P s) (fits : Fits P s chunk.length) : ParseInvariant P (s.bufAppend chunk) where
  loop := h.loopInvariant.bufAppend chunk
  accepted hp := (h.headerAccepted hp).bufAppend chunk
  sized := by simpa [Fits] using fits

theorem quiescent_overflowReset (P : Params) (s : State) : Quiescent P (s.overflowReset P) :=
  quiescent_of_seeking rfl rfl (.inl rfl)

theorem Quiescent.after_feed (h : Quiescent P s) (chunk : List Byte) : Quiescent P (feed P chunk s) := by
  obtain ⟨fits, hf⟩ | ⟨-, hf⟩ | ⟨-, le, hf⟩ := feed_cases P chunk s <;> rw [hf]
  · exact (h.parseInvariant fits).parse_quiescent
  · exact quiescent_overflowReset P s
  · exact ((quiescent_overflowReset P s).parseInvariant (by simpa [Fits] using le)).parse_quiescent

theorem Quiescent.withEvents (h : Quiescent P s) (es : List Event) : Quiescent P { s with events := es } :=
  ⟨h.seeking, h.header, h.length, h.sized⟩

theorem Quiescent.withCmdIn (h : Quiescent P s) (bytes : List Byte) : Quiescent P { s with cmdIn := bytes } :=
  ⟨h.seeking, h.header, h.length, h.sized⟩

theorem Quiescent.after_command {i : Instr} (hq : Quiescent P s) (h : CommandStep P s i t) : Quiescent P t := by
  cases h with
  | feed chunk => exact hq.after_feed chunk
  | clear => exact quiescent_of_seeking rfl rfl (.inl rfl)
  | configAccepted c m between =>
    obtain ⟨hp, hb⟩ := hq.seeking (phase_seeking_iff.2 between)
    exact quiescent_of_seeking between hp hb
  | configRejected => exact hq.withEvents _
  | encode => exact hq.withEvents _
  | illegal => exact hq.withEvents _

end Sys2Proof.Safety
end

section
/-! The statements of 10_state. -/

open Sys2Proof Sys2Proof.Machine Sys2Proof.Safety

namespace Sys2Proof.Proofs

/-- Settles O49, by cases on what the step does; the case of FEED is the parse loop's invariant. -/
theorem stepsKeepTheQuiescentInvariant : Obligations.StepsKeepTheQuiescentInvariant := by
  intro s t hq h
  cases step_inv h with
  | reset r => exact quiescent_of_seeking (takeReset_headerFound r s) (takeReset_pendingLength r s) (.inl (takeReset_buf r s))
  | command _ _ ran => exact (hq.withCmdIn _).after_command ran
  | waiting => exact hq

/-- Settles O15, by cases on what the parse step does. -/
theorem parseStepsKeepTheLoopInvariant : Obligations.ParseStepsKeepTheLoopInvariant := by
  rintro s t hi (h | h)
  · exact hi.continueStep (parseStep_again_iff.1 h)
  · exact hi.waitStep (parseStep_wait_iff.1 h)

/-- Settles O18: there the ceiling is the capacity, and FEED's branches are those of the guard. -/
theorem capacityGuardsWhereTheCeilingIsAboveIt : Obligations.CapacityGuardsWhereTheCeilingIsAboveIt := by
  intro P chunk s hcap cleared
  have hc : s.ceiling P = P.bufCapacity := State.ceiling_eq_capacity hcap.le
  have hfits : Fits P s chunk.length ↔ ¬ P.bufCapacity < s.buf.length + chunk.length := by rw [Fits, hc, Nat.not_lt]
  have hdrops : s.DropsChunk P chunk.length ↔ P.overflowPolicy = .dropChunk ∨ P.bufCapacity < chunk.length := by
    rw [State.DropsChunk, hc]
  split_ifs with hover hdrop
  · exact congrArg _ (feed_of_drop (fun h => hfits.1 h hover) (hdrops.2 hdrop))
  · obtain ⟨k, -, run⟩ := parse_run P ((s.overflowReset P).bufAppend chunk)
    exact ⟨k, _, run, congrArg _ (feed_of_keep (fun h => hfits.1 h hover) (mt hdrops.1 hdrop))⟩
  · obtain ⟨k, -, run⟩ := parse_run P (s.bufAppend chunk)
    exact ⟨k, _, run, congrArg _ (feed_of_fits (hfits.2 hover))⟩

/-- Settles O20, by the branches of FEED and the frame of the parse loop. -/
theorem feedFrameIsUnchanged : Obligations.FeedFrameIsUnchanged := by
  rintro chunk s t ⟨⟩
  exact feed_frame Config.params chunk s

/-- Settles O23: the shortest frame that is emitted has 11 bytes. -/
theorem ceilingBelowElevenEmitsNothing : Obligations.CeilingBelowElevenEmitsNothing :=
  fun chunk _ h => ⟨_, rfl, feed_payloads_of_ceiling_lt chunk h⟩

/-- Settles O37, by cases on what the step does. -/
theorem onlyConfigAndResetWriteTheConfiguration : Obligations.OnlyConfigAndResetWriteTheConfiguration := by
  intro s t h changed
  cases step_inv h with
  | reset r asserted => exact .inl (by simp [asserted])
  | waiting => simp at changed
  | command _ decoded ran =>
    obtain ⟨check, max⟩ | ⟨between, rfl⟩ := ran.configuration
    · exact absurd changed (by simp [check, max])
    · exact .inr ⟨between, _, decoded⟩

/-- Settles O38, by cases on what the command does. -/
theorem onlyFeedAndClearWriteTheDecoder : Obligations.OnlyFeedAndClearWriteTheDecoder := by
  intro i s t h changed
  obtain writer | ⟨buf, found, pending⟩ := (exec_inv h).decoder
  · exact writer
  · exact absurd changed (by simp [buf, found, pending])

/-- Settles O40, by cases on what the step does. -/
theorem stepsKeepTheBufferWithinCapacity : Obligations.StepsKeepTheBufferWithinCapacity := by
  intro s t hs h
  cases step_inv h with
  | reset r => simp
  | command _ _ ran => exact ran.length_le_capacity hs
  | waiting => exact hs

/-- Settles O46: each operation writes these fields with the values of R34. -/
theorem resetValuesOfEveryField : Obligations.ResetValuesOfEveryField :=
  ⟨⟨⟨rfl, rfl, rfl, rfl⟩, rfl, rfl⟩, fun _ =>
    ⟨⟨⟨rfl, rfl, rfl, rfl⟩, rfl, rfl⟩, ⟨_, rfl, ⟨rfl, rfl, rfl, rfl⟩, rfl, rfl⟩, ⟨rfl, rfl, rfl, rfl⟩, rfl, rfl⟩⟩

/-- Settles O48: the deframer is empty and seeks a header. -/
theorem resetIsQuiescent : Obligations.ResetIsQuiescent := quiescent_of_seeking rfl rfl (.inl rfl)

end Sys2Proof.Proofs
end

section
/-! SUPPORT. What a command may write of the ceiling and of each channel, and what an asserted `RST` leaves of the command in
progress. -/

namespace Sys2Proof.Machine

variable {P : Params} {s t : State}

/-! ## The ceiling and the channels under a command -/

/-- CONFIG rejects a ceiling above the capacity and no other command writes the ceiling (R41, R138). -/
theorem CommandStep.maxBufferSize_le_capacity {i : Instr} (h : CommandStep P s i t)
    (hs : s.maxBufferSize.toNat ≤ P.bufCapacity) : t.maxBufferSize.toNat ≤ P.bufCapacity := by
  cases h with
  | feed chunk =>
    obtain ⟨-, max, -⟩ := feed_frame P chunk s
    rwa [max]
  | configAccepted _ _ _ within => exact within
  | clear => exact hs
  | configRejected => exact hs
  | encode => exact hs
  | illegal => exact hs

/-- No command touches the bytes behind it or `RST`, or withdraws an event (R53, R57). -/
theorem CommandStep.inputs_eq_and_events_prefix {i : Instr} (h : CommandStep P s i t) :
    t.cmdIn = s.cmdIn ∧ t.rst = s.rst ∧ s.events <+: t.events := by
  cases h with
  | feed chunk =>
    obtain ⟨-, -, cmdIn, rst, events, -⟩ := feed_frame P chunk s
    exact ⟨cmdIn, rst, events⟩
  | clear => exact ⟨rfl, rfl, List.prefix_refl _⟩
  | configAccepted => exact ⟨rfl, rfl, List.prefix_refl _⟩
  | configRejected => exact ⟨rfl, rfl, List.prefix_append _ _⟩
  | encode => exact ⟨rfl, rfl, List.prefix_append _ _⟩
  | illegal => exact ⟨rfl, rfl, List.prefix_append _ _⟩

/-- Only FEED emits on `PAYLOAD_OUT` (R47). -/
theorem CommandStep.feed_or_payloads_eq {i : Instr} (h : CommandStep P s i t) :
    (∃ chunk, i = .feed chunk) ∨ payloadsOf t.events = payloadsOf s.events := by
  cases h with
  | feed chunk => exact .inl ⟨chunk, rfl⟩
  | clear => exact .inr rfl
  | configAccepted => exact .inr rfl
  | configRejected => exact .inr (by simp)
  | encode => exact .inr (by simp [payloadsOf])
  | illegal => exact .inr (by simp)

/-- Only ENCODE emits on `FRAME_OUT` (R47). -/
theorem CommandStep.encode_or_frames_eq {i : Instr} (h : CommandStep P s i t) :
    (∃ c p, i = .encode c p) ∨ framesOf t.events = framesOf s.events := by
  cases h with
  | encode c p => exact .inl ⟨c, p, rfl⟩
  | feed chunk =>
    obtain ⟨-, -, -, -, -, frames⟩ := feed_frame P chunk s
    exact .inr frames
  | clear => exact .inr rfl
  | configAccepted => exact .inr rfl
  | configRejected => exact .inr (by simp)
  | illegal => exact .inr (by simp)

/-! ## An asserted `RST` -/

theorem step_of_rst {r : ResetInput} (h : s.rst = some r) : step s = .next (takeReset r s) := by
  simp only [step, h]

theorem fetch_of_rejected {why : DecodeReject} (h : decode s.cmdIn = .rejected why) : fetch s = none := by
  simp only [fetch, h]

@[simp] theorem takeReset_useChecksum (r : ResetInput) (s : State) : (takeReset r s).useChecksum = true := by cases r <;> rfl
@[simp] theorem takeReset_maxBufferSize (r : ResetInput) (s : State) : (takeReset r s).maxBufferSize = 1048576 := by
  cases r <;> rfl
@[simp] theorem takeReset_rst (r : ResetInput) (s : State) : (takeReset r s).rst = none := by cases r <;> rfl

section DuringCommand

variable (p f d : Nat)

@[simp] theorem takeReset_duringCommand_cmdIn (s : State) : (takeReset (.duringCommand p f d) s).cmdIn = behindCommand s := rfl
@[simp] theorem takeReset_duringCommand_events (s : State) :
    (takeReset (.duringCommand p f d) s).events = s.events ++ deliverUpTo p f d (commandEvents s) := rfl

end DuringCommand

/-- A short command's bytes are all that stands on `CMD_IN`. -/
theorem behindCommand_of_rejected {why : DecodeReject} (h : decode s.cmdIn = .rejected why) : behindCommand s = [] := by
  simp only [behindCommand, fetch_of_rejected h]

theorem behindCommand_of_command {i : Instr} {rest : List Byte} (h : decode s.cmdIn = .command i rest) :
    behindCommand s = rest := by
  simp only [behindCommand, fetch_of_command h]

theorem commandEvents_of_rejected {why : DecodeReject} (h : decode s.cmdIn = .rejected why) : commandEvents s = [] := by
  simp only [commandEvents, fetch_of_rejected h]

/-- The events of the command in progress are those it adds when it completes. -/
theorem commandEvents_of_command {i : Instr} {rest : List Byte} {emitted : List Event}
    (h : decode s.cmdIn = .command i rest) (ran : exec i { s with cmdIn := rest } = .next t)
    (adds : t.events = s.events ++ emitted) : commandEvents s = emitted := by
  simp only [commandEvents, fetch_of_command h, ran, adds, List.drop_left]

end Sys2Proof.Machine
end

section
/-! The statements of 20_memory. -/

open Sys2Proof.Machine

namespace Sys2Proof.Proofs

/-- Settles O19: FEED leaves at most the ceiling, which is the smaller of the two bounds, and keeps `maxBufferSize`. -/
theorem feedCompletesWithinTheCeiling : Obligations.FeedCompletesWithinTheCeiling := by
  intro chunk s
  have within := feed_length_le_ceiling Config.params chunk s
  obtain ⟨-, max, -⟩ := feed_frame Config.params chunk s
  exact ⟨_, rfl, max ▸ within.trans (s.ceiling_le_max _), within.trans (s.ceiling_le_capacity _)⟩

/-- Settles O39, by cases on what the command does. -/
theorem commandsKeepTheCeilingWithinCapacity : Obligations.CommandsKeepTheCeilingWithinCapacity :=
  fun _ _ _ h => (exec_inv h).maxBufferSize_le_capacity

/-- Settles O41, by cases on what the command does, one channel at a time. -/
theorem commandsOnlyAddTheirOwnEvents : Obligations.CommandsOnlyAddTheirOwnEvents := by
  intro P i s t h
  have ran := transition_inv h
  obtain ⟨cmdIn, rst, events⟩ := ran.inputs_eq_and_events_prefix
  exact ⟨cmdIn, rst, events, ran.feed_or_payloads_eq.resolve_right, ran.encode_or_frames_eq.resolve_right⟩

/-- Settles O47: the step takes the reset, and what it keeps of the command in progress is counted channel by channel. -/
theorem resetAbortsTheCommandInProgress : Obligations.ResetAbortsTheCommandInProgress := by
  intro s r asserted
  refine ⟨takeReset r s, step_of_rst asserted, takeReset_buf r s, takeReset_headerFound r s, takeReset_pendingLength r s,
    takeReset_useChecksum r s, takeReset_maxBufferSize r s, takeReset_rst r s, ?_, ?_⟩
  · rintro rfl
    exact ⟨rfl, rfl⟩
  · rintro p f d rfl
    refine ⟨fun why short => ?_, fun i rest u emitted whole ran adds => ?_⟩
    · simp [behindCommand_of_rejected short, commandEvents_of_rejected short, deliverUpTo]
    · obtain ⟨payloads, frames, diags⟩ := deliverUpTo_channels p f d emitted
      simp [behindCommand_of_command whole, commandEvents_of_command whole ran adds, payloads, frames, diags]

end Sys2Proof.Proofs
end

section
/-! SUPPORT. The decoder read in both directions: which byte strings it takes, and that it reads back what the encoder writes. -/

namespace Sys2Proof

open Sys2Proof.Machine

variable {bytes rest : List Byte} {i : Instr}

/-! ## The byte strings that decode to a command -/

/-- The converse of `decode_inv`. -/
theorem DecodedAs.decode_eq (h : DecodedAs bytes i rest) : decode bytes = .command i rest := by
  cases h with
  | feed n3 n2 n1 n0 data _ length =>
    change takeData _ (beNat [n3, n2, n1, n0]) _ = _
    rw [← length, takeData_append]
  | clear => rfl
  | config => rfl
  | encode _ n3 n2 n1 n0 data _ length =>
    change takeData _ (beNat [n3, n2, n1, n0]) _ = _
    rw [← length, takeData_append]
  | reserved _ _ reserved => exact decode_reserved reserved rest

/-- Bytes appended to a command stand behind it (R74). -/
theorem DecodedAs.append (h : DecodedAs bytes i rest) (more : List Byte) : DecodedAs (bytes ++ more) i (rest ++ more) := by
  cases h with
  | feed _ _ _ _ _ _ length => simpa using DecodedAs.feed _ _ _ _ _ (rest ++ more) length
  | clear => exact .clear _
  | config => exact .config _ _ _ _ _ _
  | encode _ _ _ _ _ _ _ length => simpa using DecodedAs.encode _ _ _ _ _ _ (rest ++ more) length
  | reserved op _ reserved => exact .reserved op _ reserved

theorem DecodedAs.wellFormed (h : DecodedAs bytes i rest) : i.wellFormed = true := by
  have fits {data : List Byte} {n3 n2 n1 n0 : Byte} (length : data.length = beNat [n3, n2, n1, n0]) : lengthFits data = true :=
    decide_eq_true (by simpa [length] using beNat_lt [n3, n2, n1, n0])
  cases h with
  | feed _ _ _ _ _ _ length => exact fits length
  | clear => rfl
  | config => rfl
  | encode _ _ _ _ _ _ _ length => exact fits length
  | reserved op => exact wellFormed_decodeReserved op

/-- The encoding writes the reserved bits of a flags byte as 0 and every other byte as it was decoded (R70 to R76). -/
theorem encode_append_of_decodedAs (h : DecodedAs bytes i rest) :
    encode i ++ rest = bytes ∨
      ∃ op flags tail, (op = 0x03 ∨ op = 0x04) ∧ bytes = op :: flags :: tail ∧
        encode i ++ rest = op :: (flags &&& 0x01) :: tail := by
  cases h with
  | feed _ _ _ _ _ _ length => exact .inl (by simp [encode, lengthBytes_eq length])
  | clear => exact .inl rfl
  | config => exact .inr ⟨_, _, _, .inl rfl, rfl, by simp [encode, bytesBE32_beNat, flagByte_flagOf]⟩
  | encode _ _ _ _ _ _ _ length =>
    exact .inr ⟨_, _, _, .inr rfl, rfl, by simp [encode, lengthBytes_eq length, flagByte_flagOf]⟩
  | reserved op _ reserved => exact .inl (by rw [encode_decodeReserved reserved]; rfl)

/-! ## Reading back what the encoder writes -/

/-- `BE32` of the four bytes of a word is the word (R10). -/
theorem ofNat_beNat_bytesBE32 (v : Word) : BitVec.ofNat 32 (beNat (bytesBE32 v)) = v := by
  rw [beNat_bytesBE32, BitVec.ofNat_toNat, BitVec.setWidth_eq]

theorem ReservedRow.decodedAs {op : Byte} (h : ReservedRow i op) (rest : List Byte) : DecodedAs (encode i ++ rest) i rest := by
  have d := DecodedAs.reserved op rest h.reserved
  rw [h.decoded] at d
  rwa [h.encoded]

/-- The bytes of a well-formed command are among those that decode to it (R69 to R75). -/
theorem decodedAs_encode (h : i.wellFormed = true) (rest : List Byte) : DecodedAs (encode i ++ rest) i rest := by
  cases i with
  | feed chunk =>
    obtain ⟨_, _, _, _, hb, hn⟩ := lengthBytes_spec (of_decide_eq_true h)
    simpa [encode, hb] using DecodedAs.feed _ _ _ _ chunk rest hn.symm
  | clear => exact .clear rest
  | config c m =>
    have d := DecodedAs.config (flagByte c) (m.extractLsb' 24 8) (m.extractLsb' 16 8) (m.extractLsb' 8 8) (m.extractLsb' 0 8) rest
    rwa [flagOf_flagByte, ← bytesBE32, ofNat_beNat_bytesBE32] at d
  | encode c payload =>
    obtain ⟨_, _, _, _, hb, hn⟩ := lengthBytes_spec (of_decide_eq_true h)
    simpa [encode, hb] using DecodedAs.encode (flagByte c) _ _ _ _ payload rest hn.symm
  | illegal00 => exact reservedRow_00.decodedAs rest
  | illegal05 => exact reservedRow_05.decodedAs rest
  | illegal06 low => exact (reservedRow_06 low).decodedAs rest
  | illegal08 low => exact (reservedRow_08 low).decodedAs rest
  | illegal10 low => exact (reservedRow_10 low).decodedAs rest
  | illegal20 low => exact (reservedRow_20 low).decodedAs rest
  | illegal40 low => exact (reservedRow_40 low).decodedAs rest
  | illegal80 low => exact (reservedRow_80 low).decodedAs rest

/-! ## The byte strings that are still too short -/

/-- Bytes hold no whole command: none of a known length that has arrived (R74, R184). -/
abbrev HoldNoCommand (bytes : List Byte) : Prop := ∀ k, commandLength bytes = some k → bytes.length < k

theorem decodeFeed_rejected_iff (tail : List Byte) :
    (∃ why, decodeFeed tail = .rejected why) ↔ HoldNoCommand (0x01 :: tail) := by
  match tail with
  | _ :: _ :: _ :: _ :: _ => simp [decodeFeed, takeData_rejected_iff, HoldNoCommand, commandLength]; omega
  | [] | [_] | [_, _] | [_, _, _] => simp [decodeFeed, HoldNoCommand, commandLength]

theorem decodeConfig_rejected_iff (tail : List Byte) :
    (∃ why, decodeConfig tail = .rejected why) ↔ HoldNoCommand (0x03 :: tail) := by
  match tail with
  | _ :: _ :: _ :: _ :: _ :: _ => simp [decodeConfig, HoldNoCommand, commandLength]
  | [] | [_] | [_, _] | [_, _, _] | [_, _, _, _] => simp [decodeConfig, HoldNoCommand, commandLength]

theorem decodeEncode_rejected_iff (tail : List Byte) :
    (∃ why, decodeEncode tail = .rejected why) ↔ HoldNoCommand (0x04 :: tail) := by
  match tail with
  | _ :: _ :: _ :: _ :: _ :: _ => simp [decodeEncode, takeData_rejected_iff, HoldNoCommand, commandLength]; omega
  | [] | [_] | [_, _] | [_, _, _] | [_, _, _, _] => simp [decodeEncode, HoldNoCommand, commandLength]

theorem decode_rejected_iff (bytes : List Byte) : (∃ why, decode bytes = .rejected why) ↔ HoldNoCommand bytes := by
  cases bytes with
  | nil => simp [decode, HoldNoCommand, commandLength]
  | cons op tail =>
    by_cases h1 : op = 0x01
    · exact h1 ▸ decodeFeed_rejected_iff tail
    by_cases h3 : op = 0x03
    · exact h3 ▸ decodeConfig_rejected_iff tail
    by_cases h4 : op = 0x04
    · exact h4 ▸ decodeEncode_rejected_iff tail
    · have one : commandLength (op :: tail) = some 1 := by simp only [commandLength, if_neg h1, if_neg h3, if_neg h4]
      by_cases h2 : op = 0x02
      · simp [h2, decode, HoldNoCommand, commandLength]
      · simp [decode_reserved ((reserved_iff op).2 ⟨h1, h2, h3, h4⟩), HoldNoCommand, one]

/-! ## The reserved bits of a flags byte -/

theorem decodeConfig_and_one (flags : Byte) (tail : List Byte) :
    decodeConfig ((flags &&& 0x01) :: tail) = decodeConfig (flags :: tail) := by
  match tail with
  | _ :: _ :: _ :: _ :: _ => simp only [decodeConfig, flagOf_and_one]
  | [] | [_] | [_, _] | [_, _, _] => rfl

theorem decodeEncode_and_one (flags : Byte) (tail : List Byte) :
    decodeEncode ((flags &&& 0x01) :: tail) = decodeEncode (flags :: tail) := by
  match tail with
  | _ :: _ :: _ :: _ :: _ => simp only [decodeEncode, flagOf_and_one]
  | [] | [_] | [_, _] | [_, _, _] => rfl

/-! ## Reserved opcodes -/

/-- The command of a reserved opcode only reports itself (R140). -/
theorem transition_decodeReserved (P : Params) (op : Byte) (s : State) :
    transition P (decodeReserved op) s = .next (illegalCommand P s) := by
  unfold decodeReserved; split_ifs <;> rfl

end Sys2Proof
end

section
/-! The statements of 30_encoding about the decoder. -/

open Sys2Proof Sys2Proof.Machine

namespace Sys2Proof.Proofs

/-- Settles O1: the encoder writes one of the byte strings that decode to the command. -/
theorem decodeUndoesEncode : Obligations.DecodeUndoesEncode :=
  fun _ rest h => (decodedAs_encode h rest).decode_eq

/-- Settles O2, by cases on how the bytes decode. -/
theorem encodeUndoesDecodeButForReservedBits : Obligations.EncodeUndoesDecodeButForReservedBits := by
  intro bytes i rest h
  have decoded := decode_inv h
  exact ⟨decoded.wellFormed, encode_append_of_decodedAs decoded⟩

/-- Settles O3, by the two opcodes with a flags byte. -/
theorem reservedFlagBitsAreIgnored : Obligations.ReservedFlagBitsAreIgnored := by
  rintro op flags tail (rfl | rfl)
  · exact (decodeConfig_and_one flags tail).symm
  · exact (decodeEncode_and_one flags tail).symm

/-- Settles O4, by cases on the opcode. -/
theorem onlyShortCommandsAreNotTaken : Obligations.OnlyShortCommandsAreNotTaken := decode_rejected_iff

/-- Settles O5, by cases on how the bytes decode. -/
theorem commandStreamIsSelfDelimiting : Obligations.CommandStreamIsSelfDelimiting :=
  fun _ more _ _ h => ((decode_inv h).append more).decode_eq

/-- Settles O6: the row of the opcode table is the command, and it runs as `illegalCommand`. -/
theorem reservedOpcodesAreIllegalCommands : Obligations.ReservedOpcodesAreIllegalCommands := by
  intro op rest reserved
  refine ⟨decodeReserved op, decode_reserved reserved rest, encode_decodeReserved reserved, fun s => ?_⟩
  rw [exec_eq_transition, transition_decodeReserved]
  rfl

/-- Settles O7, by running the decoder on each example. -/
theorem encodingExamplesDecode : Obligations.EncodingExamplesDecode := by
  unfold Obligations.EncodingExamplesDecode
  decide

end Sys2Proof.Proofs
end

section
/-! SUPPORT. Frames: what ENCODE builds, what the deframer emits, and that each is an acceptable frame of R65. -/

namespace Sys2Proof.Machine

open Sys2Proof.Safety

variable {P : Params} {s t : State} {c : Bool} {max : Word} {garbage f p : List Byte}

/-! ## The frame that ENCODE builds (R60 to R64, R85) -/

theorem slice_getElem? (b : List Byte) {i n j : Nat} (h : j < n) : (slice b i n)[j]? = b[i + j]? := by simp [slice, h]

/-- Byte i/8 of a field is its quotient by 2^i, modulo 256 (R10). -/
theorem extractLsb'_eq_ofNat_div {w : Nat} (v : BitVec w) (i : Nat) : v.extractLsb' i 8 = BitVec.ofNat 8 (v.toNat / 2 ^ i) := by
  rw [← Nat.shiftRight_eq_div_pow]; rfl

theorem bytesBE32_ofNat {n : Nat} (h : n < 2 ^ 32) :
    bytesBE32 (BitVec.ofNat 32 n)
      = [BitVec.ofNat 8 (n / 2 ^ 24), BitVec.ofNat 8 (n / 2 ^ 16), BitVec.ofNat 8 (n / 2 ^ 8), BitVec.ofNat 8 n] := by
  simp only [bytesBE32, extractLsb'_eq_ofNat_div, BitVec.toNat_ofNat, Nat.mod_eq_of_lt h, pow_zero, Nat.div_one]

theorem bytesBE16_eq (v : Check) : bytesBE16 v = [BitVec.ofNat 8 (v.toNat / 2 ^ 8), BitVec.ofNat 8 v.toNat] := by
  simp only [bytesBE16, extractLsb'_eq_ofNat_div, pow_zero, Nat.div_one]

/-- The first 8 bytes of the frame of a payload of n bytes, in either mode (R60). -/
def frameHeader (P : Params) (n : Nat) : List Byte :=
  [P.m0, P.m1] ++ bytesBE32 (BitVec.ofNat 32 n) ++ bytesBE16 (chk P (bytesBE32 (BitVec.ofNat 32 n)))

/-- The PayloadCheck of the frame of payload p in mode c (R64). -/
def frameCheck (P : Params) (c : Bool) (p : List Byte) : Check :=
  payloadCheck P c (chk P (bytesBE32 (BitVec.ofNat 32 p.length))) p

theorem buildFrame_eq (P : Params) (c : Bool) (p : List Byte) :
    buildFrame P c p = frameHeader P p.length ++ p ++ bytesBE16 (frameCheck P c p) := rfl

@[simp] theorem frameHeader_length (P : Params) (n : Nat) : (frameHeader P n).length = 8 := rfl

@[simp] theorem buildFrame_length (P : Params) (c : Bool) (p : List Byte) : (buildFrame P c p).length = 10 + p.length := by
  simp [buildFrame_eq]; omega

theorem buildFrame_lengthBytes (P : Params) (c : Bool) (p : List Byte) :
    slice (buildFrame P c p) 2 4 = bytesBE32 (BitVec.ofNat 32 p.length) := rfl

theorem buildFrame_lengthCheck (P : Params) (c : Bool) (p : List Byte) :
    slice (buildFrame P c p) 6 2 = bytesBE16 (chk P (bytesBE32 (BitVec.ofNat 32 p.length))) := rfl

theorem buildFrame_payload (P : Params) (c : Bool) (p : List Byte) : slice (buildFrame P c p) 8 p.length = p := by
  rw [buildFrame_eq, List.append_assoc]
  exact (slice_append_right (frameHeader P p.length) _ 0 p.length).trans (by simp [slice])

theorem buildFrame_trailer (P : Params) (c : Bool) (p : List Byte) :
    slice (buildFrame P c p) (8 + p.length) 2 = bytesBE16 (frameCheck P c p) := by
  have h := slice_append_right (frameHeader P p.length ++ p) (bytesBE16 (frameCheck P c p)) 0 2
  rw [List.length_append, frameHeader_length] at h
  exact h

/-! The bytes of the fields, big-endian (R61). -/

theorem buildFrame_getElem?_length (P : Params) (c : Bool) (h : p.length < 2 ^ 32) {j : Nat} (hj : j < 4) :
    (buildFrame P c p)[2 + j]?
      = [BitVec.ofNat 8 (p.length / 2 ^ 24), BitVec.ofNat 8 (p.length / 2 ^ 16), BitVec.ofNat 8 (p.length / 2 ^ 8),
          BitVec.ofNat 8 p.length][j]? := by
  rw [← slice_getElem? _ hj, buildFrame_lengthBytes, bytesBE32_ofNat h]

theorem buildFrame_getElem?_lengthCheck (P : Params) (c : Bool) (p : List Byte) {j : Nat} (hj : j < 2) :
    (buildFrame P c p)[6 + j]?
      = [BitVec.ofNat 8 ((chk P (slice (buildFrame P c p) 2 4)).toNat / 2 ^ 8),
          BitVec.ofNat 8 (chk P (slice (buildFrame P c p) 2 4)).toNat][j]? := by
  rw [← slice_getElem? _ hj, buildFrame_lengthCheck, buildFrame_lengthBytes, bytesBE16_eq]

theorem buildFrame_getElem?_payloadCheck (P : Params) (c : Bool) (p : List Byte) {j : Nat} (hj : j < 2) :
    (buildFrame P c p)[8 + p.length + j]?
      = [BitVec.ofNat 8 ((frameCheck P c p).toNat / 2 ^ 8), BitVec.ofNat 8 (frameCheck P c p).toNat][j]? := by
  rw [← slice_getElem? _ hj, buildFrame_trailer, bytesBE16_eq]

/-- `FIXED_HEADER_SIZE` is at most the 10 fixed bytes of a frame (R6). -/
theorem fixedHeaderSize_bytes_le (h : FixedHeaderSize) : h.bytes ≤ 10 := by cases h <;> decide

/-- A deframer in the mode of the frame accepts what ENCODE builds, if its ceiling admits it (R65, R91). -/
theorem acceptableFrame_buildFrame (nonEmpty : 1 ≤ p.length) (within : p.length + 10 ≤ max.toNat) :
    AcceptableFrame P c max (buildFrame P c p) p where
  frameLength := buildFrame_length P c p
  magic := rfl
  lengthField := by
    have := max.isLt
    rw [buildFrame_lengthBytes, beNat_bytesBE32, BitVec.toNat_ofNat, Nat.mod_eq_of_lt (by omega)]
  nonEmpty := nonEmpty
  withinLimit := (Nat.add_le_add_left (fixedHeaderSize_bytes_le _) _).trans within
  lengthCheck := by rw [buildFrame_lengthBytes, buildFrame_lengthCheck, be16_bytesBE16]; rfl
  payload := buildFrame_payload P c p
  payloadCheck := by rw [buildFrame_trailer, buildFrame_lengthCheck, be16_bytesBE16, be16_bytesBE16]; rfl

/-- In light mode everything around the payload depends on its length alone (R89). -/
theorem buildFrame_light_eq {q : List Byte} (length : p.length = q.length) :
    buildFrame P false q = frameHeader P p.length ++ q ++ bytesBE16 (frameCheck P false p) := by
  simp only [buildFrame_eq, frameCheck, payloadCheck, length, Bool.false_eq_true, if_false]

/-- The frame an ENCODE is seen to emit is the one it builds. -/
theorem eq_buildFrame_of_transition (h : transition P (.encode c p) s = .next { s with events := s.events ++ [.frame f] }) :
    f = buildFrame P c p := by
  simp only [transition, encodePayload] at h
  split_ifs at h
  simpa [State.emit] using (congrArg State.events (Host.Outcome.next.inj h)).symm

/-! ## The parse loop on an acceptable frame (R65) -/

theorem magicAt_of_acceptableFrame (ha : AcceptableFrame P c max f p) : MagicAt P f 0 := by
  have h0 := congrArg (·[0]?) ha.magic
  have h1 := congrArg (·[1]?) ha.magic
  simp only [List.getElem?_take] at h0 h1
  exact ⟨by simpa using h0, by simpa using h1⟩

/-- The search stops at the frame if no Magic begins in the bytes before it (R111). -/
theorem firstMagic_garbage_append (ha : AcceptableFrame P c max f p)
    (noMagic : ∀ i < garbage.length, ¬ MagicAt P (garbage ++ f) i) : firstMagic P (garbage ++ f) = some garbage.length := by
  obtain ⟨h0, h1⟩ := magicAt_of_acceptableFrame ha
  refine firstMagic_eq_some_iff.2 ⟨⟨?_, ?_⟩, noMagic⟩
  · simpa [List.getElem?_append_right] using h0
  · simpa [List.getElem?_append_right] using h1

/-- With a header found the loop accepts the header and then the payload, and finds the buffer empty. -/
theorem parse_of_acceptableFrame (phase : s.headerFound = true ∧ s.pendingLength = 0)
    (ha : AcceptableFrame P s.useChecksum s.maxBufferSize s.buf p) :
    parse P s = { s with
      buf := [], headerFound := false, pendingLength := 0, events := s.events ++ [.payload p] } := by
  obtain ⟨frameLength, -, lengthField, nonEmpty, withinLimit, lengthCheck, payload, check⟩ := ha
  have field : s.lengthField = p.length := lengthField
  have pending : (BitVec.ofNat 32 s.lengthField).toNat = p.length := (toNat_ofNat_lengthField (by omega)).trans field
  have nonzero : BitVec.ofNat 32 s.lengthField ≠ 0 := fun h => by simp [h] at pending; omega
  have header := ContinueStep.lengthAccepted (P := P) phase (by omega) (by omega) (by omega) lengthCheck
  have accepted := ContinueStep.payloadAccepted (P := P) (s := { s with pendingLength := BitVec.ofNat 32 s.lengthField })
    ⟨phase.1, nonzero⟩ (by simp only [pending]; omega)
    (by simp only [State.payloadMatches, State.bufRead, pending, payload, check]; rfl)
  rw [parse_of_again (parseStep_again_iff.2 header), parse_of_again (parseStep_again_iff.2 accepted)]
  simp only [pending, State.acceptFrame, State.emit, State.bufDrop, State.toSeeking, State.bufRead, payload,
    ← frameLength, List.drop_length]
  exact parse_of_wait (parseStep_wait_iff.2 (.noMagic rfl rfl))

/-- FEED of a frame behind bytes in which no Magic begins emits its payload and nothing else (R65, R66). -/
theorem feed_garbage_append (searching : s.headerFound = false) (empty : s.buf = [])
    (fits : (garbage ++ f).length ≤ s.ceiling P) (ha : AcceptableFrame P s.useChecksum s.maxBufferSize f p)
    (noMagic : ∀ i < garbage.length, ¬ MagicAt P (garbage ++ f) i) :
    feed P (garbage ++ f) s = { s with pendingLength := 0, events := s.events ++ [.payload p] } := by
  have found := ContinueStep.magicFound (P := P) (s := s.bufAppend (garbage ++ f)) garbage.length searching
    (by simpa [empty] using firstMagic_garbage_append ha noMagic)
  rw [feed_of_fits (by simpa [Fits, empty] using fits), parse_of_again (parseStep_again_iff.2 found),
    parse_of_acceptableFrame (p := p) ⟨rfl, rfl⟩ (by simpa [empty] using ha)]
  simp [State.bufAppend, empty, searching]

/-- FEED of a frame alone (R65). -/
theorem feed_of_acceptableFrame (searching : s.headerFound = false) (empty : s.buf = []) (fits : f.length ≤ s.ceiling P)
    (ha : AcceptableFrame P s.useChecksum s.maxBufferSize f p) :
    feed P f s = { s with pendingLength := 0, events := s.events ++ [.payload p] } :=
  feed_garbage_append (garbage := []) searching empty fits ha (by simp)

end Sys2Proof.Machine
end

section
/-! SUPPORT. Soundness of the emissions: what the loop emits stands as acceptable frames in the buffer it started from (R65, R99). -/

namespace Sys2Proof.Safety

open Sys2Proof.Machine

variable {P : Params} {s t : State} {c : Bool} {max : Word}

/-- The buffered frame that HAVE_LENGTH emits is acceptable. -/
theorem ParseInvariant.acceptableFrame (hi : ParseInvariant P s) (phase : s.headerFound = true ∧ s.pendingLength ≠ 0)
    (enough : 10 + s.pendingLength.toNat ≤ s.buf.length) (equal : s.payloadMatches P) :
    AcceptableFrame P s.useChecksum s.maxBufferSize (slice s.buf 0 (10 + s.pendingLength.toNat))
      (s.bufRead 8 s.pendingLength.toNat) := by
  obtain ⟨-, withinLimit, lengthField, lengthCheck⟩ := hi.accepted phase.2
  have length : (s.bufRead 8 s.pendingLength.toNat).length = s.pendingLength.toNat := slice_length _ _ _ (by omega)
  have magic := hi.loop.headerIsMagic phase.1
  have inner {i n : Nat} (h : i + n ≤ 10 + s.pendingLength.toNat) :
      slice (slice s.buf 0 (10 + s.pendingLength.toNat)) i n = slice s.buf i n := by rw [slice_slice _ h, Nat.zero_add]
  constructor
  case frameLength => rw [length, slice_length _ _ _ (by omega)]
  case magic => rw [← magic]; exact inner (i := 0) (by omega)
  case lengthField => rw [length, inner (by omega)]; exact lengthField
  case nonEmpty => rw [length]; exact Nat.one_le_iff_ne_zero.2 fun h => phase.2 (BitVec.eq_of_toNat_eq h)
  case withinLimit => rwa [length]
  case lengthCheck => rw [inner (by omega), inner (by omega)]; exact lengthCheck
  case payload => rw [length, inner (by omega)]; rfl
  case payloadCheck => rw [length, inner (by omega), inner (by omega)]; exact equal.symm

/-- What a step that continues drops and emits: no payload, or that of the acceptable frame it drops. -/
theorem ParseInvariant.continueStep_emission (hi : ParseInvariant P s) (h : ContinueStep P s t) :
    ∃ k es, t.buf = s.buf.drop k ∧ t.events = s.events ++ es ∧
      (payloadsOf es = [] ∨
        ∃ p, payloadsOf es = [p] ∧ k = 10 + p.length ∧
          AcceptableFrame P s.useChecksum s.maxBufferSize (slice s.buf 0 (10 + p.length)) p) := by
  cases h with
  | payloadAccepted phase enough equal =>
    have length : (s.bufRead 8 s.pendingLength.toNat).length = s.pendingLength.toNat := slice_length _ _ _ (by omega)
    exact ⟨_, _, rfl, rfl, .inr ⟨_, rfl, by rw [length], by rw [length]; exact hi.acceptableFrame phase enough equal⟩⟩
  | magicFound i => exact ⟨i, [], rfl, by simp, .inl rfl⟩
  | lengthAccepted => exact ⟨0, [], rfl, by simp, .inl rfl⟩
  | zeroLength => exact ⟨1, _, rfl, rfl, .inl (payloadsOf_diagEvents _ _)⟩
  | lengthAboveLimit => exact ⟨1, _, rfl, rfl, .inl (payloadsOf_diagEvents _ _)⟩
  | lengthCheckFailed => exact ⟨1, _, rfl, rfl, .inl (payloadsOf_diagEvents _ _)⟩
  | payloadRejected => exact ⟨1, _, rfl, rfl, .inl (payloadsOf_diagEvents _ _)⟩

/-- Frames that stand behind the first k bytes stand in the whole stream. -/
theorem framesInStream_of_drop {stream : List Byte} {k lo lo' : Nat} {ps : List (List Byte)}
    (h : FramesInStream P c max (stream.drop k) lo ps) (hlo : lo' ≤ k + lo) : FramesInStream P c max stream lo' ps := by
  induction ps generalizing lo lo' with
  | nil => trivial
  | cons p ps ih =>
    obtain ⟨i, hi, frame, behind⟩ := h
    exact ⟨k + i, by omega, slice_drop stream k i _ ▸ frame, ih behind (by omega)⟩

/-- The payloads emitted between s and t are those of acceptable frames in the buffer of s, in order and without overlap (R99). -/
def EmitsBufferedFrames (P : Params) (s t : State) : Prop :=
  ∃ emitted, t.events = s.events ++ emitted ∧
    FramesInStream P s.useChecksum s.maxBufferSize s.buf 0 (payloadsOf emitted)

theorem emitsBufferedFrames_of_continueStep {u : State} (hi : ParseInvariant P s) (h : ContinueStep P s u)
    (hu : EmitsBufferedFrames P u t) : EmitsBufferedFrames P s t := by
  obtain ⟨later, events, frames⟩ := hu
  obtain ⟨k, es, buf, step, emission⟩ := hi.continueStep_emission h
  rw [h.frame.useChecksum, h.frame.maxBufferSize, buf] at frames
  refine ⟨es ++ later, by simp [events, step], ?_⟩
  rw [payloadsOf_append]
  obtain quiet | ⟨p, one, rfl, frame⟩ := emission
  · simpa [quiet] using framesInStream_of_drop frames (Nat.zero_le _)
  · rw [one]
    exact ⟨0, le_rfl, frame, framesInStream_of_drop frames (by omega)⟩

theorem ParseInvariant.parse_emitsBufferedFrames (hi : ParseInvariant P s) : EmitsBufferedFrames P s (parse P s) :=
  parse_induct (C := fun s t => ParseInvariant P s → EmitsBufferedFrames P s t)
    (fun h _ => ⟨[], by simp [h.events_eq], trivial⟩)
    (fun h ih hi => emitsBufferedFrames_of_continueStep hi h (ih (hi.continueStep h))) s hi

end Sys2Proof.Safety
end

section
/-! SUPPORT. The two outcomes of CONFIG. -/

namespace Sys2Proof.Machine

variable {P : Params} {c : Bool} {m : Word} {s : State}

/-- Between sessions a ceiling within the capacity is accepted (R136). -/
theorem configure_of_le (between : s.headerFound = false) (within : m.toNat ≤ P.bufCapacity) :
    configure P c m s = { s with useChecksum := c, maxBufferSize := m } := by
  simp [configure, between, Nat.not_lt.2 within]

/-- A ceiling above the capacity is rejected in every phase (R137, R138). -/
theorem configure_of_capacity_lt (above : P.bufCapacity < m.toNat) : configure P c m s = s.diag P .cfgRejected := by
  simp [configure, above]

end Sys2Proof.Machine
end

section
/-! The statements of 30_encoding about frames and INIT. -/

open Sys2Proof Sys2Proof.Machine Sys2Proof.Safety

namespace Sys2Proof.Proofs

/-- Settles O9: each field of the built frame is a slice of it, whose bytes are those of a big-endian number. -/
theorem frameFieldsStandInTheirPlaces : Obligations.FrameFieldsStandInTheirPlaces := by
  intro c p s h
  have length {j : Nat} (hj : j < 4) := buildFrame_getElem?_length Config.params c h hj
  have lengthCheck {j : Nat} (hj : j < 2) := buildFrame_getElem?_lengthCheck Config.params c p hj
  have payloadCheck {j : Nat} (hj : j < 2) := buildFrame_getElem?_payloadCheck Config.params c p hj
  refine ⟨buildFrame Config.params c p, if_pos (decide_eq_true h), buildFrame_length _ c p, rfl, rfl,
    length (j := 0) (by decide), length (j := 1) (by decide), length (j := 2) (by decide), length (j := 3) (by decide),
    lengthCheck (j := 0) (by decide), lengthCheck (j := 1) (by decide), buildFrame_payload _ c p,
    payloadCheck (j := 0) (by decide), ?_⟩
  rw [show 9 + p.length = 8 + p.length + 1 by omega]
  exact payloadCheck (j := 1) (by decide)

/-- Settles O24: the loop accepts the header and then the payload. -/
theorem acceptableFrameIsEmitted : Obligations.AcceptableFrameIsEmitted :=
  fun _ _ _ _ searching empty fits ha => congrArg _ (feed_of_acceptableFrame searching empty fits ha)

/-- Settles O25: the search passes over the garbage to the frame. -/
theorem garbageBeforeAFrameIsDiscarded : Obligations.GarbageBeforeAFrameIsDiscarded :=
  fun _ _ _ _ _ searching empty fits ha noMagic => congrArg _ (feed_garbage_append searching empty fits ha noMagic)

/-- Settles O29, by the invariant of the parse loop. -/
theorem emittedPayloadsAreFramesOfTheStream : Obligations.EmittedPayloadsAreFramesOfTheStream := by
  intro P chunk s hq fits
  obtain ⟨emitted, events, frames⟩ := (hq.parseInvariant fits).parse_emitsBufferedFrames
  exact ⟨_, emitted, congrArg Host.Outcome.next (feed_of_fits fits), events, frames⟩

/-- Settles O30: with q in place of p the bytes are the frame that ENCODE builds for q. -/
theorem lightModeAcceptsAnyPayload : Obligations.LightModeAcceptsAnyPayload := by
  intro P p q header trailer s light searching empty nonEmpty length fits header8 encoded
  have built : frameHeader P p.length ++ p ++ bytesBE16 (frameCheck P false p) = header ++ p ++ trailer :=
    (eq_buildFrame_of_transition encoded).symm
  obtain ⟨front, rfl⟩ := List.append_inj built (by simp [header8])
  obtain rfl := List.append_cancel_right front
  rw [← buildFrame_light_eq length]
  have ha : AcceptableFrame P s.useChecksum s.maxBufferSize (buildFrame P false q) q := by
    rw [light]
    exact acceptableFrame_buildFrame (by omega) (length ▸ fits.trans (s.ceiling_le_max P))
  exact congrArg _ (feed_of_acceptableFrame searching empty (by rw [buildFrame_length]; omega) ha)

/-- Settles O42: CLEAR leaves no header found, so that only the capacity decides about CONFIG. -/
theorem initConfiguresFromAnyState : Obligations.InitConfiguresFromAnyState := by
  intro P c m s
  refine ⟨[.clear, .config c m], rfl, ?_⟩
  change Host.Outcome.next (configure P c m s.clearDecoder) = _
  by_cases within : m.toNat ≤ P.bufCapacity
  · rw [if_pos within, configure_of_le rfl within]; rfl
  · rw [if_neg within, configure_of_capacity_lt (Nat.not_le.1 within)]; rfl

end Sys2Proof.Proofs
end

section
/-! SUPPORT. The two outcomes of ENCODE, FEED in any partition of a stream, and the frame of the empty payload. -/

namespace Sys2Proof.Machine

open Sys2Proof.Safety

variable {P : Params} {s t : State} {c : Bool} {p : List Byte} {chunks : List (List Byte)}

/-! ## The two outcomes of ENCODE (R85, R86) -/

theorem transition_encode_of_lt (h : p.length < 2 ^ 32) :
    transition P (.encode c p) s = .next { s with events := s.events ++ [.frame (buildFrame P c p)] } :=
  if_pos (decide_eq_true h)

theorem transition_encode_of_le (h : 2 ^ 32 ≤ p.length) : transition P (.encode c p) s = .refused .payloadTooLong :=
  if_neg (by simpa [lengthFits] using h)

/-! ## FEED in any partition (R103) -/

/-- Chunks that fit the ceiling together overflow in no FEED, since parsing never lengthens the buffer. -/
theorem noOverflow_of_flatten_length (h : s.buf.length + chunks.flatten.length ≤ s.ceiling P) : NoOverflow P chunks s := by
  induction chunks generalizing s with
  | nil => trivial
  | cons chunk chunks ih =>
    rw [List.flatten_cons, List.length_append] at h
    have fits : Fits P s chunk.length := by unfold Fits; omega
    refine ⟨fits, fun t ht => ?_⟩
    obtain rfl : feed P chunk s = t := Host.Outcome.next.inj ht
    apply ih
    rw [feed_of_fits fits]
    have frame := parse_frame P (s.bufAppend chunk)
    have shrinks := frame.shrinks
    rw [State.ceiling_congr frame.maxBufferSize, State.bufAppend_ceiling]
    rw [State.bufAppend_buf, List.length_append] at shrinks
    omega

/-- From a state the parse loop has left, FEEDs that do not overflow do what parsing their joined chunks at once does. -/
theorem execAll_feeds_of_noOverflow (h : NoOverflow P chunks (parse P s)) :
    execAll P (chunks.map .feed) (parse P s) = .next (parse P (s.bufAppend chunks.flatten)) := by
  induction chunks generalizing s with
  | nil => simp [execAll, State.bufAppend]
  | cons chunk chunks ih =>
    obtain ⟨fits, later⟩ := h
    have fed : feed P chunk (parse P s) = parse P (s.bufAppend chunk) :=
      (feed_of_fits fits).trans (parse_bufAppend P s chunk).symm
    have later := later _ rfl
    rw [fed] at later
    change execAll P (chunks.map .feed) (feed P chunk (parse P s)) = _
    rw [fed, ih later]
    simp [State.bufAppend]

/-- With nothing buffered the search finds nothing and changes nothing (R113). -/
theorem parse_of_searching_empty (searching : s.headerFound = false) (empty : s.buf = []) : parse P s = s := by
  have wait := parse_of_wait (parseStep_wait_iff.2 (.noMagic (P := P) searching (by rw [empty]; rfl)))
  rwa [show retained P s.buf = s.buf by rw [empty]; rfl] at wait

/-- Feeding a stream that fits in pieces is feeding it at once. -/
theorem execAll_feeds_eq_feed_flatten (searching : s.headerFound = false) (empty : s.buf = [])
    (fits : chunks.flatten.length ≤ s.ceiling P) :
    execAll P (chunks.map .feed) s = .next (feed P chunks.flatten s) := by
  have total : s.buf.length + chunks.flatten.length ≤ s.ceiling P := by simpa [empty] using fits
  have idle : parse P s = s := parse_of_searching_empty searching empty
  have run := execAll_feeds_of_noOverflow (s := s) (by rw [idle]; exact noOverflow_of_flatten_length total)
  rw [idle] at run
  rw [run, feed_of_fits total]

/-! ## The frame of the empty payload (R87) -/

theorem firstMagic_buildFrame (P : Params) (c : Bool) (p : List Byte) : firstMagic P (buildFrame P c p) = some 0 :=
  firstMagic_eq_some_iff.2 ⟨⟨rfl, rfl⟩, by simp⟩

theorem diagsOf_diagEvents (P : Params) (code : DiagCode) :
    diagsOf (diagEvents P code) = if P.diagPresent then [code] else [] := by
  unfold diagEvents; split <;> rfl

/-- Without the diagnostic channel no step reports (R151, R154). -/
theorem ContinueStep.diags_of_absent (h : ContinueStep P s t) (absent : P.diagPresent = false) :
    diagsOf t.events = diagsOf s.events := by
  cases h with
  | payloadAccepted => simp [diagsOf]
  | magicFound => rfl
  | lengthAccepted => rfl
  | zeroLength => simp [diagsOf_diagEvents, absent]
  | lengthAboveLimit => simp [diagsOf_diagEvents, absent]
  | lengthCheckFailed => simp [diagsOf_diagEvents, absent]
  | payloadRejected => simp [diagsOf_diagEvents, absent]

theorem parse_diags_of_absent (absent : P.diagPresent = false) (s : State) :
    diagsOf (parse P s).events = diagsOf s.events :=
  parse_induct (C := fun s t => diagsOf t.events = diagsOf s.events)
    (fun h => congrArg diagsOf h.events_eq) (fun h ih => ih.trans (h.diags_of_absent absent)) s

/-- What the loop adds to the diagnostic channel, where there is one. -/
theorem exists_parse_diags (P : Params) (s : State) :
    ∃ codes, diagsOf (parse P s).events = diagsOf s.events ++ if P.diagPresent then codes else [] := by
  obtain ⟨added, events⟩ := (parse_frame P s).events
  refine ⟨diagsOf added, ?_⟩
  cases present : P.diagPresent with
  | false => simp [parse_diags_of_absent present]
  | true => simp [← events]

/-- The loop finds the Magic of an empty payload's frame and rejects its Length (R116). -/
theorem parse_buildFrame_nil (searching : s.headerFound = false) (frame : s.buf = buildFrame P c []) :
    parse P s = parse P (s.reject P .lenZero) := by
  have found := ContinueStep.magicFound (P := P) 0 searching (frame ▸ firstMagic_buildFrame P c [])
  have zero := ContinueStep.zeroLength (P := P)
    (s := { s with buf := s.buf.drop 0, headerFound := true, pendingLength := 0 }) ⟨rfl, rfl⟩
    (by simp [frame]) (by simp [State.lengthField, State.bufRead, frame, buildFrame_lengthBytes])
  rw [parse_of_again (parseStep_again_iff.2 found), parse_of_again (parseStep_again_iff.2 zero)]
  rfl

end Sys2Proof.Machine
end

section
/-! The statements of 40_encoder. -/

open Sys2Proof Sys2Proof.Machine Sys2Proof.Safety

namespace Sys2Proof.Proofs

/-- Settles O26: the FEEDs of the pieces are the FEED of the whole frame, which is acceptable. -/
theorem roundTripInAnyPartition : Obligations.RoundTripInAnyPartition := by
  intro P p f chunks s nonEmpty within searching empty encoded joined
  obtain rfl := eq_buildFrame_of_transition encoded
  have fits : (buildFrame P s.useChecksum p).length ≤ s.ceiling P := by rw [buildFrame_length]; omega
  have ha : AcceptableFrame P s.useChecksum s.maxBufferSize (buildFrame P s.useChecksum p) p :=
    acceptableFrame_buildFrame nonEmpty (within.trans (s.ceiling_le_max P))
  rw [execAll_feeds_eq_feed_flatten searching empty (joined ▸ fits), joined,
    feed_of_acceptableFrame searching empty fits ha]

/-- Settles O11: the trailer is the PayloadCheck of light mode, which reads the payload's length only. -/
theorem lightModeFramesDifferOnlyInPayload : Obligations.LightModeFramesDifferOnlyInPayload := by
  intro p q s length h
  refine ⟨frameHeader Config.params p.length, bytesBE16 (frameCheck Config.params false p), rfl, rfl, ?_, ?_⟩
  · rw [exec_eq_transition, transition_encode_of_lt h, buildFrame_eq]
  · rw [exec_eq_transition, transition_encode_of_lt (length ▸ h), buildFrame_light_eq length]

/-- Settles O31: the zero Length is rejected first, and the 9 bytes left are too few for any frame. -/
theorem emptyPayloadFrameIsRejected : Obligations.EmptyPayloadFrameIsRejected := by
  intro P c f s searching empty room encoded
  obtain rfl := eq_buildFrame_of_transition encoded
  have fed : feed P (buildFrame P c []) s = parse P ((s.bufAppend (buildFrame P c [])).reject P .lenZero) := by
    rw [feed_of_fits (by simpa [Fits, empty] using room)]
    exact parse_buildFrame_nil (c := c) searching (by simp [empty])
  obtain ⟨codes, diags⟩ := exists_parse_diags P ((s.bufAppend (buildFrame P c [])).reject P .lenZero)
  refine ⟨_, codes, congrArg Host.Outcome.next fed, ?_, ?_⟩
  · rw [parse_payloads_of_short (by simp [empty])]
    simp
  · rw [diags, State.reject_events, State.bufAppend_events, diagsOf_append, diagsOf_diagEvents]
    split <;> simp

/-- Settles O8: the frame is the one `buildFrame` lays out. -/
theorem encodeEmitsItsFrame : Obligations.EncodeEmitsItsFrame :=
  fun c p s h => (exec_eq_transition (.encode c p) s).trans (transition_encode_of_lt h)

/-- Settles O10: the length check fails. -/
theorem encodeRefusesAnInexpressiblePayload : Obligations.EncodeRefusesAnInexpressiblePayload :=
  fun c p s h => (exec_eq_transition (.encode c p) s).trans (transition_encode_of_le h)

end Sys2Proof.Proofs
end

section
/-! SUPPORT. FEED as a run of parse steps, chunks that are lost, and two FEEDs in a row. -/

namespace Sys2Proof.Machine

open Sys2Proof.Safety

variable {P : Params} {s : State} {chunk f g p q : List Byte}

/-! ## The parse steps of a FEED (R95 to R98) -/

theorem exists_feed_run_of_fits (fits : Fits P s chunk.length) :
    ∃ k ≤ 3 * ((s.buf ++ chunk).length + 1), ParseRun P k (s.bufAppend chunk) (feed P chunk s) :=
  feed_of_fits fits ▸ parse_run P (s.bufAppend chunk)

theorem exists_feed_run_of_keep (overflows : ¬ Fits P s chunk.length) (keeps : ¬ s.DropsChunk P chunk.length) :
    ∃ k, ParseRun P k ((s.overflowReset P).bufAppend chunk) (feed P chunk s) := by
  obtain ⟨k, -, run⟩ := parse_run P ((s.overflowReset P).bufAppend chunk)
  exact ⟨k, feed_of_keep overflows keeps ▸ run⟩

/-! ## Chunks that are lost (R102) -/

/-- A chunk above the ceiling overflows whatever is buffered, and either policy drops it. -/
theorem feed_of_ceiling_lt (above : s.ceiling P < chunk.length) : feed P chunk s = s.overflowReset P :=
  feed_of_drop (fun fits : s.buf.length + chunk.length ≤ s.ceiling P => by omega) (.inr above)

/-! ## Two FEEDs in a row (R104) -/

@[simp] theorem State.bufAppend_nil (s : State) : s.bufAppend [] = s := by simp [State.bufAppend]

theorem feed_append (searching : s.headerFound = false) (empty : s.buf = []) (fits : (f ++ g).length ≤ s.ceiling P) :
    feed P (f ++ g) s = feed P g (feed P f s) := by
  have joined : [f, g].flatten = f ++ g := by simp
  have run := execAll_feeds_eq_feed_flatten (chunks := [f, g]) searching empty (by rwa [joined])
  rw [joined] at run
  exact (Host.Outcome.next.inj run).symm

/-- FEED of a frame that ENCODE builds in the state's mode (R91). -/
theorem feed_buildFrame (searching : s.headerFound = false) (empty : s.buf = []) (nonEmpty : 1 ≤ p.length)
    (within : p.length + 10 ≤ s.ceiling P) :
    feed P (buildFrame P s.useChecksum p) s = { s with pendingLength := 0, events := s.events ++ [.payload p] } :=
  feed_of_acceptableFrame searching empty (by rw [buildFrame_length]; omega)
    (acceptableFrame_buildFrame nonEmpty (within.trans (s.ceiling_le_max P)))

end Sys2Proof.Machine
end

section
/-! SUPPORT. FEED on a quiescent state: the parse loop has nothing to do there, so only the stream behind it matters. -/

namespace Sys2Proof.Safety

open Sys2Proof.Machine

variable {P : Params} {s : State}

/-! ## Quiescent states are where the parse loop waits (R101) -/

theorem Quiescent.waitStep (h : Quiescent P s) : WaitStep P s s := by
  match phase : s.phase with
  | .seekingHeader =>
    have kept : retained P s.buf = s.buf ∧ firstMagic P s.buf = none := by
      obtain ⟨-, hb | hb⟩ := h.seeking phase <;> simp [hb, retained, firstMagic]
    have wait := WaitStep.noMagic (P := P) (phase_seeking_iff.1 phase) kept.2
    rwa [kept.1] at wait
  | .haveHeader => exact .shortHeader (phase_haveHeader_iff.1 phase) (h.header phase).2
  | .haveLength =>
    obtain ⟨-, -, -, -, -, short⟩ := h.length phase
    exact .shortFrame (phase_haveLength_iff.1 phase) short

theorem Quiescent.parse_eq (h : Quiescent P s) : parse P s = s := parse_of_wait (parseStep_wait_iff.2 h.waitStep)

/-- Under either policy an empty FEED that overflows leaves the full reset: nothing is parsed behind it. -/
theorem feed_nil_of_overflow (overflows : ¬ Fits P s 0) : feed P [] s = s.overflowReset P := by
  obtain ⟨fits, -⟩ | ⟨-, dropped⟩ | ⟨-, -, kept⟩ := feed_cases P [] s
  · exact absurd fits overflows
  · exact dropped
  · rw [kept, State.bufAppend_nil, (quiescent_overflowReset P s).parse_eq]

/-- Only a retained M0 under a ceiling of 0 is above the ceiling in a quiescent state. -/
theorem Quiescent.of_ceiling_lt (h : Quiescent P s) (above : s.ceiling P < s.buf.length) :
    s.buf = [P.m0] ∧ s.maxBufferSize = 0 ∧ s.headerFound = false ∧ s.pendingLength = 0 := by
  have searching : s.headerFound = false := eq_false_of_ne_true fun found => Nat.not_le.2 above (h.sized found)
  obtain ⟨pending, empty | lone⟩ := h.seeking (phase_seeking_iff.2 searching)
  · simp [empty] at above
  · rw [lone] at above
    have below : s.maxBufferSize.toNat < 1 := (min_lt_iff.1 above).resolve_right (by simp)
    exact ⟨lone, BitVec.eq_of_toNat_eq (Nat.lt_one_iff.1 below), searching, pending⟩

/-! ## FEEDs of a partition (R103) -/

/-- From a quiescent state, FEEDs that do not overflow do what parsing the joined stream at once does. -/
theorem Quiescent.execAll_feeds (h : Quiescent P s) {chunks : List (List Byte)} (fits : NoOverflow P chunks s) :
    execAll P (chunks.map .feed) s = .next (parse P (s.bufAppend chunks.flatten)) := by
  have run := execAll_feeds_of_noOverflow (P := P) (s := s) (chunks := chunks)
  rw [h.parse_eq] at run
  exact run fits

end Sys2Proof.Safety
end

section
/-! The statements of 41_feed. -/

open Sys2Proof Sys2Proof.Machine Sys2Proof.Safety

namespace Sys2Proof.Proofs

/-- Settles O16, by the measure that bounds the parse loop. -/
theorem feedParsesUntilItWaits : Obligations.FeedParsesUntilItWaits := by
  intro chunk s fits
  obtain ⟨k, bound, run⟩ := exists_feed_run_of_fits fits
  exact ⟨k, _, bound, run, rfl⟩

/-- Settles O17: within the capacity the ceiling is `maxBufferSize`, and FEED's branches are those of the guard. -/
theorem overflowGuardResetsTheDeframer : Obligations.OverflowGuardResetsTheDeframer := by
  intro chunk s within cleared
  have ceiling : s.ceiling Config.params = s.maxBufferSize.toNat := State.ceiling_eq within
  have fits_iff : Fits Config.params s chunk.length ↔ ¬ s.maxBufferSize.toNat < s.buf.length + chunk.length := by
    rw [Fits, ceiling, Nat.not_lt]
  have drops_iff : s.DropsChunk Config.params chunk.length ↔
      Config.overflowPolicy = .dropChunk ∨ s.maxBufferSize.toNat < chunk.length := by
    rw [State.DropsChunk, ceiling]; rfl
  by_cases overflows : s.maxBufferSize.toNat < s.buf.length + chunk.length
  · have notFits : ¬ Fits Config.params s chunk.length := fun fits => fits_iff.1 fits overflows
    rw [if_pos overflows]
    by_cases drops : Config.overflowPolicy = .dropChunk ∨ s.maxBufferSize.toNat < chunk.length
    · rw [if_pos drops]
      exact congrArg _ (feed_of_drop notFits (drops_iff.2 drops))
    · rw [if_neg drops]
      obtain ⟨k, run⟩ := exists_feed_run_of_keep notFits (mt drops_iff.1 drops)
      exact ⟨Nat.not_lt.1 (not_or.1 drops).2, k, _, run, rfl⟩
  · rw [if_neg overflows]
    obtain ⟨k, -, run⟩ := exists_feed_run_of_fits (fits_iff.2 overflows)
    exact ⟨List.length_append ▸ Nat.not_lt.1 overflows, k, _, run, rfl⟩

/-- Settles O21: the loop waits at once in a quiescent state, and in the one that overflows the full reset leaves nothing to parse. -/
theorem emptyFeedIsIdle : Obligations.EmptyFeedIsIdle := by
  intro s quiescent
  by_cases within : s.buf.length ≤ s.ceiling Config.params
  · have fed : feed Config.params [] s = parse Config.params (s.bufAppend []) := feed_of_fits within
    rw [State.bufAppend_nil, quiescent.parse_eq] at fed
    rw [if_pos within]
    exact congrArg _ fed
  · obtain ⟨lone, zero, searching, pending⟩ := quiescent.of_ceiling_lt (Nat.not_le.1 within)
    rw [if_neg within]
    refine ⟨lone, zero, searching, (congrArg Host.Outcome.next (feed_nil_of_overflow within)).trans ?_⟩
    rw [searching, pending]
    rfl

/-- Settles O27: each partition does what parsing the whole stream at once does. -/
theorem chunkSizeIndependence : Obligations.ChunkSizeIndependence := by
  intro P xs ys s quiescent joined fitsX fitsY
  exact ⟨_, quiescent.execAll_feeds fitsX, joined ▸ quiescent.execAll_feeds fitsY⟩

/-- Settles O28: one FEED of two frames is the FEED of the first and then of the second. -/
theorem pipelinedFramesBothEmit : Obligations.PipelinedFramesBothEmit := by
  intro P p q f g s nonEmptyP nonEmptyQ within searching empty encodedP encodedQ
  obtain rfl := eq_buildFrame_of_transition encodedP
  obtain rfl := eq_buildFrame_of_transition encodedQ
  have fits : (buildFrame P s.useChecksum p ++ buildFrame P s.useChecksum q).length ≤ s.ceiling P := by
    rw [List.length_append, buildFrame_length, buildFrame_length]; omega
  have fedQ := feed_buildFrame (P := P) (s := { s with pendingLength := 0, events := s.events ++ [.payload p] })
    searching empty nonEmptyQ (show q.length + 10 ≤ s.ceiling P by omega)
  rw [transition, feed_append searching empty fits, feed_buildFrame searching empty nonEmptyP (by omega)]
  exact congrArg _ (fedQ.trans (by simp))

/-- Settles O32: the full reset drops the chunk and leaves an empty deframer in the same configuration. -/
theorem frameAfterAnOversizedChunkIsFound : Obligations.FrameAfterAnOversizedChunkIsFound := by
  intro P chunk p f s above nonEmpty within encoded
  obtain rfl := eq_buildFrame_of_transition encoded
  have lost : feed P chunk s = s.overflowReset P := feed_of_ceiling_lt above
  have found := feed_buildFrame (P := P) (s := s.overflowReset P) rfl rfl nonEmpty within
  simp only [execAll, transition, lost]
  exact congrArg _ found

end Sys2Proof.Proofs
end

section
/-! SUPPORT. The fields of a frame read at its byte positions, and FEED in the middle of a frame. -/

namespace Sys2Proof.Machine

open Sys2Proof.Safety

variable {P : Params} {s : State} {chunk : List Byte}

/-- A two-byte field is its bytes, the first the more significant (R10). -/
theorem be16_pair (a b : Byte) : be16 [a, b] = a ++ b := by
  apply BitVec.eq_of_toNat_eq
  have := a.isLt
  have := b.isLt
  rw [be16, beNat_two, BitVec.toNat_ofNat, BitVec.toNat_append, ← Nat.shiftLeft_add_eq_or_of_lt b.isLt, Nat.shiftLeft_eq]
  omega

/-- A field that stands between two parts of the buffer is what a read at its place gives (R9). -/
theorem bufRead_of_eq_append {pre field post : List Byte} {i n : Nat} (buffered : s.buf = pre ++ (field ++ post))
    (start : pre.length = i) (length : field.length = n) : s.bufRead i n = field := by
  simp [State.bufRead, slice, buffered, ← start, ← length]

/-! ## A whole frame in the buffer, its fields named (R60) -/

section BufferedFrame

variable {front payload rest : List Byte} {c1 c0 p1 p0 : Byte} (six : front.length = 6)
  (length : payload.length = s.pendingLength.toNat)
  (buffered : s.buf = front ++ c1 :: c0 :: (payload ++ p1 :: p0 :: rest))
include six length buffered

theorem bufRead_payload_of_buffered : s.bufRead 8 s.pendingLength.toNat = payload :=
  bufRead_of_eq_append (pre := front ++ [c1, c0]) (post := p1 :: p0 :: rest) (by simp [buffered]) (by simp [six]) length

theorem payloadMatches_iff_of_buffered :
    s.payloadMatches P ↔ payloadCheck P s.useChecksum (c1 ++ c0) payload = p1 ++ p0 := by
  have lengthCheck : s.bufRead 6 2 = [c1, c0] := bufRead_of_eq_append buffered six rfl
  have trailer : s.bufRead (8 + s.pendingLength.toNat) 2 = [p1, p0] :=
    bufRead_of_eq_append (pre := front ++ [c1, c0] ++ payload) (post := rest) (by simp [buffered])
      (by simp [six, length]; omega) rfl
  rw [State.payloadMatches, bufRead_payload_of_buffered six length buffered, lengthCheck, trailer, be16_pair, be16_pair]

/-- Acceptance delivers the payload that stands in the buffer and keeps what stands behind the frame (R122). -/
theorem acceptFrame_of_buffered : s.acceptFrame s.pendingLength.toNat = { s with
    buf := rest, headerFound := false, pendingLength := 0, events := s.events ++ [.payload payload] } := by
  have frame : s.buf = (front ++ [c1, c0] ++ payload ++ [p1, p0]) ++ rest := by simp [buffered]
  have behind : s.buf.drop (10 + s.pendingLength.toNat) = rest := frame ▸ List.drop_left' (by simp [six, length]; omega)
  simp only [State.acceptFrame, State.emit, State.bufDrop, State.toSeeking, behind,
    bufRead_payload_of_buffered six length buffered]

end BufferedFrame

/-! ## FEED in the middle of a frame -/

/-- A FEED that fits and leaves the awaited frame short only appends (R120). -/
theorem feed_of_shortFrame (phase : s.headerFound = true ∧ s.pendingLength ≠ 0) (fits : Fits P s chunk.length)
    (short : s.buf.length + chunk.length < 10 + s.pendingLength.toNat) : feed P chunk s = s.bufAppend chunk := by
  rw [feed_of_fits fits]
  exact parse_of_wait (parseStep_wait_iff.2 (.shortFrame phase (by simpa using short)))

end Sys2Proof.Machine
end

section
/-! The statements of 42_parse_states. -/

open Sys2Proof Sys2Proof.Machine Sys2Proof.Safety

namespace Sys2Proof.Proofs

/-- Settles O12: `firstMagic` answers the least index of a Magic, and none where there is no Magic. -/
theorem seekStepFindsTheFirstMagic : Obligations.SeekStepFindsTheFirstMagic := by
  intro s searching
  constructor
  · intro i stands least
    exact parseStep_again_iff.2 (.magicFound i searching (firstMagic_eq_some_iff.2 ⟨stands, least⟩))
  · intro nowhere
    exact parseStep_wait_iff.2 (.noMagic searching (firstMagic_eq_none_iff.2 nowhere))

/-- Settles O13: once the two fields are read off the 8 bytes, each check is one way the step can continue. -/
theorem headerStepChecksInOrder : Obligations.HeaderStepChecksInOrder := by
  intro s found unknown
  have phase : s.headerFound = true ∧ s.pendingLength = 0 := ⟨found, unknown⟩
  refine ⟨fun short => parseStep_wait_iff.2 (.shortHeader phase short), ?_⟩
  intro f0 f1 l3 l2 l1 l0 c1 c0 rest buffered L rejected
  have enough : 8 ≤ s.buf.length := by simp [buffered]
  have lengthBytes : s.bufRead 2 4 = [l3, l2, l1, l0] := bufRead_of_eq_append (pre := [f0, f1]) buffered rfl rfl
  have length : s.lengthField = L := (congrArg beNat lengthBytes).trans (beNat_four l3 l2 l1 l0)
  have lengthCheck : s.bufRead 6 2 = [c1, c0] :=
    bufRead_of_eq_append (pre := [f0, f1, l3, l2, l1, l0]) buffered rfl rfl
  have checksum_iff : chk Config.params (s.bufRead 2 4) = be16 (s.bufRead 6 2) ↔
      Config.checksum16 [l3, l2, l1, l0] = c1 ++ c0 := by
    rw [lengthBytes, lengthCheck, be16_pair]; rfl
  clear_value L
  subst length
  refine parseStep_again_iff.2 ?_
  split_ifs with zero above differs
  · exact .zeroLength phase enough zero
  · exact .lengthAboveLimit phase enough zero above
  · exact .lengthCheckFailed phase enough zero (Nat.not_lt.1 above) (mt checksum_iff.1 differs)
  · exact .lengthAccepted phase enough zero (Nat.not_lt.1 above) (checksum_iff.2 (not_not.1 differs))

/-- Settles O14: whether the fields that stand in the buffer match decides how the step continues. -/
theorem payloadStepEmitsOrResyncs : Obligations.PayloadStepEmitsOrResyncs := by
  intro s found known
  have phase : s.headerFound = true ∧ s.pendingLength ≠ 0 := ⟨found, known⟩
  refine ⟨fun short => parseStep_wait_iff.2 (.shortFrame phase short), ?_⟩
  intro front payload rest c1 c0 p1 p0 six length buffered
  have enough : 10 + s.pendingLength.toNat ≤ s.buf.length := by simp [buffered, ← length, six]; omega
  have matches_iff : s.payloadMatches Config.params ↔
      (if s.useChecksum then Config.checksum16 payload else ~~~ (c1 ++ c0)) = p1 ++ p0 :=
    payloadMatches_iff_of_buffered six length buffered
  refine parseStep_again_iff.2 ?_
  by_cases equal : s.payloadMatches Config.params
  · rw [if_pos (matches_iff.1 equal)]
    have accepted := ContinueStep.payloadAccepted phase enough equal
    rwa [acceptFrame_of_buffered six length buffered] at accepted
  · rw [if_neg (mt matches_iff.2 equal)]
    exact .payloadRejected phase enough equal

/-- Settles O22: a chunk that fits under a ceiling below 10 + L leaves the frame short too. -/
theorem incompleteFrameOnlyAccumulates : Obligations.IncompleteFrameOnlyAccumulates := by
  intro P chunk s found known fits incomplete
  have within : s.buf.length + chunk.length ≤ s.ceiling P := fits
  have short : s.buf.length + chunk.length < 10 + s.pendingLength.toNat := incomplete.elim id within.trans_lt
  exact congrArg _ (feed_of_shortFrame ⟨found, known⟩ fits short)

end Sys2Proof.Proofs
end

section
/-! SUPPORT. CONFIG in the middle of a frame, and the commands of the reserved opcodes. -/

namespace Sys2Proof.Machine

/-- In the middle of a frame every operand is rejected (R137). -/
theorem configure_of_headerFound {P : Params} {c : Bool} {m : Word} {s : State} (found : s.headerFound = true) :
    configure P c m s = s.diag P .cfgRejected :=
  if_pos found

/-- Every command in a row of the reserved opcodes runs as `illegalCommand` (R140). -/
theorem exec_of_reservedRow {i : Instr} {op : Byte} (row : ReservedRow i op) (s : State) :
    exec i s = .next (illegalCommand Config.params s) := by
  rw [exec_eq_transition, ← row.decoded, transition_decodeReserved]

end Sys2Proof.Machine
end

section
/-! The statements of 43_control. -/

open Sys2Proof Sys2Proof.Machine

namespace Sys2Proof.Proofs

/-- Settles O34: CLEAR runs as `clearDecoder`, which writes these three fields. -/
theorem clearEmptiesTheDecoder : Obligations.ClearEmptiesTheDecoder :=
  fun s => exec_eq_transition .clear s

/-- Settles O35, by the outcomes of CONFIG: mid-frame, beyond the capacity, accepted. -/
theorem configSetsTheConfigurationOrIsRejected : Obligations.ConfigSetsTheConfigurationOrIsRejected := by
  intro c m s rejected
  change Host.Outcome.next (configure Config.params c m s) = _
  split_ifs with found above
  · rw [configure_of_headerFound found]; rfl
  · rw [configure_of_capacity_lt above]; rfl
  · rw [configure_of_le (eq_false_of_ne_true found) (Nat.not_lt.1 above)]

/-- Settles O36, by the row of each command in the opcode table. -/
theorem illegalCommandsOnlyReport : Obligations.IllegalCommandsOnlyReport := by
  intro s reported
  exact ⟨exec_of_reservedRow reservedRow_00 s, exec_of_reservedRow reservedRow_05 s,
    fun b => exec_of_reservedRow (reservedRow_06 b) s, fun b => exec_of_reservedRow (reservedRow_08 b) s,
    fun b => exec_of_reservedRow (reservedRow_10 b) s, fun b => exec_of_reservedRow (reservedRow_20 b) s,
    fun b => exec_of_reservedRow (reservedRow_40 b) s, fun b => exec_of_reservedRow (reservedRow_80 b) s⟩

end Sys2Proof.Proofs
end

section
/-! SUPPORT. Every `CommandStep` is a run of its command, what a refusal says, and the step that waits. -/

namespace Sys2Proof.Machine

variable {P : Params} {s t : State} {i : Instr}

/-- The converse of `transition_inv`. -/
theorem CommandStep.transition_eq (h : CommandStep P s i t) : transition P i s = .next t := by
  cases h with
  | feed => rfl
  | clear => rfl
  | configRejected c m why =>
    exact congrArg _ (why.elim configure_of_headerFound configure_of_capacity_lt)
  | configAccepted c m between within => exact congrArg _ (configure_of_le between within)
  | encode c p fits => exact if_pos fits
  | illegal row => rw [← row.decoded, transition_decodeReserved]; rfl

/-- Only ENCODE refuses, and only for its payload's length (R86). -/
theorem transition_refused_inv {r : Refusal} (h : transition P i s = .refused r) :
    ∃ c p, i = .encode c p ∧ 2 ^ 32 ≤ p.length ∧ r = .payloadTooLong := by
  cases i with
  | encode c p =>
    rcases Nat.lt_or_ge p.length (2 ^ 32) with short | long
    · rw [transition_encode_of_lt short] at h
      cases h
    · rw [transition_encode_of_le long] at h
      cases h
      exact ⟨c, p, rfl, long, rfl⟩
  | _ => cases h

/-- With no whole command on `CMD_IN` nothing is fetched (R166, R184). -/
theorem step_of_rejected {why : DecodeReject} (quiet : s.rst = none) (h : decode s.cmdIn = .rejected why) : step s = .next s := by
  simp only [step, quiet, fetch_of_rejected h]

end Sys2Proof.Machine
end

section
/-! SUPPORT. The diagnostic channel and the `Diag` events delivered decide nothing else: of two blocks that differ in these only, each
step of one is matched by a step of the other (R154). -/

namespace Sys2Proof.Safety

open Sys2Proof.Machine

variable {P : Params} {present : Bool} {s s' t : State} {i : Instr}

/-! ## What the operations keep -/

theorem SameButDiags.exists_eq (same : SameButDiags s t) :
    ∃ cmdIn rst events, t = { s with cmdIn := cmdIn, rst := rst, events := events } := by
  obtain ⟨buf, headerFound, pendingLength, useChecksum, maxBufferSize, -, -⟩ := same
  exact ⟨t.cmdIn, t.rst, t.events, by rw [buf, headerFound, pendingLength, useChecksum, maxBufferSize]⟩

theorem SameButDiags.bufAppend (same : SameButDiags s t) (b : List Byte) : SameButDiags (s.bufAppend b) (t.bufAppend b) :=
  { same with buf := congrArg (· ++ b) same.buf }

theorem SameButDiags.bufDrop (same : SameButDiags s t) (k : Nat) : SameButDiags (s.bufDrop k) (t.bufDrop k) :=
  { same with buf := congrArg (·.drop k) same.buf }

theorem SameButDiags.toSeeking (same : SameButDiags s t) : SameButDiags s.toSeeking t.toSeeking :=
  { same with headerFound := rfl, pendingLength := rfl }

theorem SameButDiags.clearDecoder (same : SameButDiags s t) : SameButDiags s.clearDecoder t.clearDecoder :=
  { same with buf := rfl, headerFound := rfl, pendingLength := rfl }

theorem SameButDiags.emit (same : SameButDiags s t) (e : Event) : SameButDiags (s.emit e) (t.emit e) :=
  { same with payloads := by simp [same.payloads], frames := by simp [same.frames] }

/-- A condition's report, delivered in one block and not in the other, adds to no other channel (R154). -/
theorem SameButDiags.diag (same : SameButDiags s t) (P Q : Params) (code : DiagCode) :
    SameButDiags (s.diag P code) (t.diag Q code) :=
  { same with payloads := by simp [same.payloads], frames := by simp [same.frames] }

theorem SameButDiags.reject (same : SameButDiags s t) (P Q : Params) (code : DiagCode) :
    SameButDiags (s.reject P code) (t.reject Q code) :=
  ((same.diag P Q code).bufDrop 1).toSeeking

theorem SameButDiags.overflowReset (same : SameButDiags s t) (P Q : Params) :
    SameButDiags (s.overflowReset P) (t.overflowReset Q) :=
  same.clearDecoder.diag P Q .overflow

theorem SameButDiags.acceptFrame (same : SameButDiags s t) (L : Nat) : SameButDiags (s.acceptFrame L) (t.acceptFrame L) := by
  have read : t.bufRead 8 L = s.bufRead 8 L := by rw [State.bufRead, State.bufRead, same.buf]
  rw [State.acceptFrame, State.acceptFrame, read]
  exact ((same.emit _).bufDrop _).toSeeking

/-! ## The parse loop -/

theorem firstMagic_diagPresent (P : Params) (present : Bool) (buf : List Byte) :
    firstMagic { P with diagPresent := present } buf = firstMagic P buf :=
  Option.ext fun _ => firstMagic_eq_some_iff.trans (firstMagic_eq_some_iff (P := P)).symm

theorem SameButDiags.exists_continueStep (same : SameButDiags s t) (h : ContinueStep P s s') :
    ∃ t', ContinueStep { P with diagPresent := present } t t' ∧ SameButDiags s' t' := by
  obtain ⟨cmdIn, rst, events, rfl⟩ := same.exists_eq
  cases h with
  | magicFound i phase found =>
    exact ⟨_, .magicFound i phase ((firstMagic_diagPresent P present s.buf).trans found),
      { same with buf := rfl, headerFound := rfl, pendingLength := rfl }⟩
  | zeroLength phase enough zero => exact ⟨_, .zeroLength phase enough zero, same.reject ..⟩
  | lengthAboveLimit phase enough nonzero above =>
    exact ⟨_, .lengthAboveLimit phase enough nonzero above, same.reject ..⟩
  | lengthCheckFailed phase enough nonzero within differs =>
    exact ⟨_, .lengthCheckFailed phase enough nonzero within differs, same.reject ..⟩
  | lengthAccepted phase enough nonzero within equal =>
    exact ⟨_, .lengthAccepted phase enough nonzero within equal, { same with pendingLength := rfl }⟩
  | payloadAccepted phase enough equal => exact ⟨_, .payloadAccepted phase enough equal, same.acceptFrame _⟩
  | payloadRejected phase enough differs => exact ⟨_, .payloadRejected phase enough differs, same.reject ..⟩

theorem SameButDiags.exists_waitStep (same : SameButDiags s t) (h : WaitStep P s s') :
    ∃ t', WaitStep { P with diagPresent := present } t t' ∧ SameButDiags s' t' := by
  obtain ⟨cmdIn, rst, events, rfl⟩ := same.exists_eq
  cases h with
  | noMagic phase none =>
    exact ⟨_, .noMagic phase ((firstMagic_diagPresent P present s.buf).trans none), { same with buf := rfl }⟩
  | shortHeader phase short => exact ⟨_, .shortHeader phase short, same⟩
  | shortFrame phase short => exact ⟨_, .shortFrame phase short, same⟩

theorem SameButDiags.after_parse (same : SameButDiags s t) :
    SameButDiags (parse P s) (parse { P with diagPresent := present } t) := by
  refine parse_induct (C := fun s s' => ∀ t, SameButDiags s t → SameButDiags s' (parse { P with diagPresent := present } t))
    (fun h t same => ?_) (fun h ih t same => ?_) s t same
  · obtain ⟨t', waits, same'⟩ := same.exists_waitStep (present := present) h
    rwa [parse_of_wait (parseStep_wait_iff.2 waits)]
  · obtain ⟨u, continues, same'⟩ := same.exists_continueStep (present := present) h
    rw [parse_of_again (parseStep_again_iff.2 continues)]
    exact ih u same'

/-! ## The commands -/

theorem SameButDiags.fits_iff (same : SameButDiags s t) (n : Nat) : Fits { P with diagPresent := present } t n ↔ Fits P s n := by
  obtain ⟨cmdIn, rst, events, rfl⟩ := same.exists_eq
  exact Iff.rfl

theorem SameButDiags.dropsChunk_iff (same : SameButDiags s t) (n : Nat) :
    t.DropsChunk { P with diagPresent := present } n ↔ s.DropsChunk P n := by
  obtain ⟨cmdIn, rst, events, rfl⟩ := same.exists_eq
  exact Iff.rfl

theorem SameButDiags.after_feed (same : SameButDiags s t) (chunk : List Byte) :
    SameButDiags (feed P chunk s) (feed { P with diagPresent := present } chunk t) := by
  by_cases fits : Fits P s chunk.length
  · rw [feed_of_fits fits, feed_of_fits ((same.fits_iff _).2 fits)]
    exact (same.bufAppend chunk).after_parse
  have overflows := mt (same.fits_iff (present := present) _).1 fits
  by_cases drops : s.DropsChunk P chunk.length
  · rw [feed_of_drop fits drops, feed_of_drop overflows ((same.dropsChunk_iff _).2 drops)]
    exact same.overflowReset ..
  · rw [feed_of_keep fits drops, feed_of_keep overflows (mt (same.dropsChunk_iff _).1 drops)]
    exact ((same.overflowReset ..).bufAppend chunk).after_parse

theorem SameButDiags.exists_commandStep (same : SameButDiags s t) (h : CommandStep P s i s') :
    ∃ t', CommandStep { P with diagPresent := present } t i t' ∧ SameButDiags s' t' := by
  cases h with
  | feed chunk => exact ⟨_, .feed chunk, same.after_feed chunk⟩
  | clear => exact ⟨_, .clear, same.clearDecoder⟩
  | configRejected c m why => exact ⟨_, .configRejected c m (same.headerFound ▸ why), same.diag ..⟩
  | configAccepted c m between within =>
    exact ⟨_, .configAccepted c m (same.headerFound ▸ between) within, { same with useChecksum := rfl, maxBufferSize := rfl }⟩
  | encode c p fits => exact ⟨_, .encode c p fits, same.emit _⟩
  | illegal row => exact ⟨_, .illegal row, same.diag ..⟩

end Sys2Proof.Safety
end

section
/-! The statements of 60_exceptions. -/

open Sys2Proof Sys2Proof.Machine Sys2Proof.Safety

namespace Sys2Proof.Proofs

/-- Settles O33: what the command can do in one block it can do in the other, and a refusal looks at the payload's length only. -/
theorem diagnosticsNeverAffectTheRest : Obligations.DiagnosticsNeverAffectTheRest := by
  intro P present i s t same Q
  refine ⟨fun s' ran => ?_, fun r refused => ?_⟩
  · obtain ⟨t', matching, same'⟩ := same.exists_commandStep (transition_inv ran)
    exact ⟨t', matching.transition_eq, same'⟩
  · obtain ⟨c, p, rfl, long, rfl⟩ := transition_refused_inv refused
    exact transition_encode_of_le long

/-- Settles O45: nothing is fetched, so the step answers its own state. -/
theorem stepWaitsForAWholeCommand : Obligations.StepWaitsForAWholeCommand :=
  fun _ _ => step_of_rejected

/-- Settles O50, by the value of each code. -/
theorem diagnosticCodes : Obligations.DiagnosticCodes := ⟨rfl, rfl, rfl, rfl, rfl, rfl, rfl⟩

end Sys2Proof.Proofs
end
